-- ==== Sys2Proof/Word.lean ====
section
/-! DEFINITION. The widths of 00_scope.md R6: a memory cell, an immediate and a port number are bytes; the program
counter, a memory address and TD's stack pointer are 16-bit words whose arithmetic wraps modulo 0x10000 (R22). -/

namespace Sys2Proof

/-- A memory cell, an 8-bit immediate or a port number, 0 to 255 (R6). -/
abbrev Byte := BitVec 8

/-- A 16-bit unsigned value, 0 to 0xFFFF (R6, R22). -/
abbrev Word := BitVec 16

end Sys2Proof
end

