-- ==== Sys2Proof/Config.lean ====
section
/-! DEFINITION. What a launch fixes for the engine, beside the decoder and the devices (00_scope.md R6–R9, R13, R14), and
the one free value of the model, the byte a device answers (41_address_dispatch.md R128). -/

namespace Sys2Proof

/-- The three interrupt modes (00_scope.md R6, 10_state.md R27); no other value can be written down. -/
inductive InterruptMode where
  | mode0
  | mode1
  | mode2
deriving DecidableEq, Repr

/-- `IM_UNSUPPORTED_POLICY` (R8): what a delivery in mode 0 or 2 does (42_engine_step.md R148). -/
inductive ImPolicy where
  | reject
  | noOp
deriving DecidableEq, Repr

/-- A device identifier (00_scope.md R13). -/
abbrev DeviceId := Nat

/-- The parameters the spec leaves OPEN (R14) that are plain data and that no step writes. They stand in `State`, so that
a statement about every state is a statement about every value of them. -/
structure Params where
  /-- `DECODE_BUDGET` (R7), a positive natural: the positivity comes with the value. -/
  decodeBudget : { n : Nat // 0 < n }
  /-- `IM_UNSUPPORTED_POLICY` (R8). -/
  imPolicy : ImPolicy
  /-- Of `DEVICES` (R13): the set of port numbers each device declares (41_address_dispatch.md R129). -/
  claims : List (DeviceId × List Nat)
deriving DecidableEq, Repr

/-- The parameters `State.reset` takes: the spec's test value 4 for `DECODE_BUDGET` (R7; DESIGN CHOICE, log 2) and its
default `Reject` for `IM_UNSUPPORTED_POLICY` (R8), and no device (log 6). -/
def Config.defaultParams : Params := { decodeBudget := ⟨4, by decide⟩, imPolicy := .reject, claims := [] }

/-- FREE VALUE (R128, log 7): the byte `device` answers to a read of `port` when the environment has chosen no answer
beforehand; `draw` tells one such read from another. Nothing constrains it. -/
opaque Config.deviceByte (device : DeviceId) (port : Byte) (draw : Nat) : Byte

end Sys2Proof
end

