-- ==== Sys2Proof/Syntax.lean ====
section
/-! DEFINITION. The instructions of spec/opcode_table.json, one constructor a row, in the table's order
(43_instruction_set.md R201). An instruction carries its operand, so that a term is the spec's pair `(ins, args)`
(log 15). -/

namespace Sys2Proof

/-- The completed instructions of the test decoder TD (R200, R201). -/
inductive Instr where
  /-- `NOP` (R202) -/
  | nop
  /-- `CALL nn` (R203) -/
  | call (nn : Word)
  /-- `LD A,n` (R204) -/
  | ldAImm (n : Byte)
  /-- `LD SP,nn` (R205) -/
  | ldSpImm (nn : Word)
  /-- `LD (nn),A` (R206) -/
  | ldMemA (nn : Word)
  /-- `LD A,(nn)` (R207) -/
  | ldAMem (nn : Word)
  /-- `JP nn` (R208) -/
  | jp (nn : Word)
  /-- `RET` (R209) -/
  | ret
  /-- `OUT (n),A` (R210) -/
  | outPortA (n : Byte)
  /-- `IN A,(n)` (R211) -/
  | inAPort (n : Byte)
  /-- `DI` (R212) -/
  | di
  /-- `EI` (R213) -/
  | ei
  /-- `IM 0` (R214) -/
  | im0
  /-- `IM 1` (R215) -/
  | im1
  /-- `IM 2` (R216) -/
  | im2
deriving DecidableEq, Repr

end Sys2Proof
end

