-- ==== Sys2Proof/WellFormed.lean ====
section
/-! DEFINITION. What the spec asks of the values a launch hands over. An `Instr` needs no check: its operands carry
their widths in their types, so every term of `Instr` is an instruction of R201, and no statement over instructions
has a well-formedness premise. The checks below are on plain naturals, where an ill-formed value can be written. -/

namespace Sys2Proof

/-- The length in bytes of TD's longest instruction (R89, R90). -/
def longestInstr : Nat := 3

/-- R7 for TD, as a check that runs: "For the test decoder of 43_instruction_set.md it is at least 3". For any decoder it
is `Engine.DecoderParts.BudgetCovers`, with which this agrees (`testDecoder_budgetCovers`). -/
def Params.wellFormed (p : Params) : Bool := decide (longestInstr ≤ p.decodeBudget.val)

/-- R132: a port number given to `bind` is in [0, 255]. -/
def portsWellFormed (ports : List Nat) : Bool := ports.all fun p => decide (p < 256)

end Sys2Proof
end

