-- ==== Sys2Proof/Decode.lean ====
section
/-! DEFINITION. The type of a decoder's `feed`, for every decoder (40_decoder_contract.md R100–R103); the `feed` of the
spec's instance, the test decoder TD (43_instruction_set.md R200, R201, R217); TD on a list of bytes; the encoder, written
from R201; and the host's `decodeTableWord`. -/

namespace Sys2Proof

/-! ### Byte order of immediates -/

/-- `nn = byte1 | (byte2 << 8)` (20_memory.md R52, 30_encoding.md R84, R89). -/
def leWord (lo hi : Byte) : Word := lo.setWidth 16 ||| (hi.setWidth 16 <<< 8)

/-- Bits 7:0. -/
def loByte (w : Word) : Byte := w.extractLsb' 0 8

/-- Bits 15:8. -/
def hiByte (w : Word) : Byte := w.extractLsb' 8 8

/-! ### `feed`, for every decoder -/

/-- What one `feed` yields (R101), over a decoder's types `ι` of instructions and `α` of argument descriptors. -/
inductive DecodeResult (ι α : Type) where
  | incomplete
  | complete (ins : ι) (args : α)
deriving DecidableEq, Repr

/-- The type of a decoder's `feed` over its state type `δ` (R101): total and deterministic in the state and the byte. -/
abbrev Feed (δ ι α : Type) := δ → Byte → δ × DecodeResult ι α

/-- The contract on `feed` (R102): the state after a completed instruction is `dec_init`. -/
def FeedContract {δ ι α : Type} (init : δ) (f : Feed δ ι α) : Prop :=
  ∀ d b i a, (f d b).2 = .complete i a → (f d b).1 = init

/-- Whether `bytes`, fed from the state `d`, are one instruction: the first feed that completes is the last. -/
def completesAtEnd {δ ι α : Type} (f : Feed δ ι α) : δ → List Byte → Bool
  | _, [] => false
  | d, b :: bs =>
    match (f d b).2 with
    | .complete _ _ => bs.isEmpty
    | .incomplete => completesAtEnd f (f d b).1 bs

/-- The longest instruction the decoder completes has at most `n` bytes (00_scope.md R7). -/
def LongestAtMost {δ ι α : Type} (init : δ) (f : Feed δ ι α) (n : Nat) : Prop :=
  ∀ bytes, completesAtEnd f init bytes = true → bytes.length ≤ n

/-! ### TD's `feed` -/

/-- TD's `DecState` (R200). -/
inductive DecState where
  /-- The bytes consumed so far of the instruction being decoded (R31). -/
  | accum (bytes : List Byte)
  /-- A byte sequence TD does not list has been fed (R91). -/
  | junk
deriving DecidableEq, Repr

/-- TD's `dec_init` (R100, R200). -/
def decInit : DecState := .accum []

/-- The argument descriptor `args` (R83, R89): the bytes after byte 0 for formats B2n and B3nn, `[]` for B1 and ED. -/
def Instr.args : Instr → List Byte
  | .nop | .ret | .di | .ei | .im0 | .im1 | .im2 => []
  | .ldAImm n | .outPortA n | .inAPort n => [n]
  | .call nn | .ldSpImm nn | .ldMemA nn | .ldAMem nn | .jp nn => [loByte nn, hiByte nn]

/-- The one-byte rows of R201 (format B1). -/
def rowsB1 : List (Byte × Instr) := [(0x00, .nop), (0xC9, .ret), (0xF3, .di), (0xFB, .ei)]

/-- The rows of R201 with one operand byte (format B2n). -/
def rowsB2n : List (Byte × (Byte → Instr)) :=
  [(0x3E, .ldAImm), (0xD3, .outPortA), (0xDB, .inAPort)]

/-- The rows of R201 with two operand bytes (format B3nn). -/
def rowsB3nn : List (Byte × (Word → Instr)) :=
  [(0xCD, .call), (0x31, .ldSpImm), (0x32, .ldMemA), (0x3A, .ldAMem), (0xC3, .jp)]

/-- The second bytes of the rows of R201 with the prefix 0xED (format ED). -/
def rowsED : List (Byte × Instr) := [(0x46, .im0), (0x56, .im1), (0x5E, .im2)]

/-- The prefix byte of format ED (R89). -/
def edPrefix : Byte := 0xED

/-- The instruction of which `t` is the whole encoding, if there is one (R217). -/
def wholeEncoding : List Byte → Option Instr
  | [op] => rowsB1.lookup op
  | [op, x] => if op = edPrefix then rowsED.lookup x else (rowsB2n.lookup op).map fun mk => mk x
  | [op, lo, hi] => (rowsB3nn.lookup op).map fun mk => mk (leWord lo hi)
  | _ => none

/-- Whether `t` is a proper prefix of the encoding of some row, as R217 spells it out. -/
def isProperPrefix : List Byte → Bool
  | [op] => (rowsB2n.lookup op).isSome || (rowsB3nn.lookup op).isSome || op == edPrefix
  | [op, _] => (rowsB3nn.lookup op).isSome
  | _ => false

/-- TD's `feed` (R217). -/
def feed : Feed DecState Instr (List Byte)
  | .junk, _ => (.junk, .incomplete)
  | .accum s, b =>
    match wholeEncoding (s ++ [b]) with
    | some i => (decInit, .complete i i.args)
    | none => if isProperPrefix (s ++ [b]) then (.accum (s ++ [b]), .incomplete) else (.junk, .incomplete)

/-- TD keeps the contract (R102, R217). -/
theorem feed_contract : FeedContract decInit feed := by
  intro d b i a h
  cases d with
  | junk => cases h
  | accum s =>
    cases hw : wholeEncoding (s ++ [b]) with
    | some j => simp only [feed, hw]
    | none =>
      simp only [feed, hw] at h
      split at h <;> cases h

/-! ### Decoding a list of bytes -/

/-- Why a list of bytes holds no instruction at its front. -/
inductive DecodeReject where
  /-- The bytes begin with a sequence R201 does not list (R91, R218). -/
  | unlisted
  /-- The bytes end inside an instruction. -/
  | truncated
deriving DecidableEq, Repr

/-- Feeds bytes from the state `d` until an instruction completes; answers it with the bytes not consumed. -/
def decodeFrom : DecState → List Byte → Except DecodeReject (Instr × List Byte)
  | .junk, [] => .error .unlisted
  | .accum _, [] => .error .truncated
  | d, b :: bs =>
    match (feed d b).2 with
    | .complete i _ => .ok (i, bs)
    | .incomplete => decodeFrom (feed d b).1 bs

/-- TD's reading of a list of bytes: its first instruction and the bytes after it. -/
def decode (bytes : List Byte) : Except DecodeReject (Instr × List Byte) := decodeFrom decInit bytes

/-! ### Encoding -/

/-- The bytes of an instruction in fetch order (R201). -/
def encode : Instr → List Byte
  | .nop => [0x00]
  | .call nn => [0xCD, loByte nn, hiByte nn]
  | .ldAImm n => [0x3E, n]
  | .ldSpImm nn => [0x31, loByte nn, hiByte nn]
  | .ldMemA nn => [0x32, loByte nn, hiByte nn]
  | .ldAMem nn => [0x3A, loByte nn, hiByte nn]
  | .jp nn => [0xC3, loByte nn, hiByte nn]
  | .ret => [0xC9]
  | .outPortA n => [0xD3, n]
  | .inAPort n => [0xDB, n]
  | .di => [0xF3]
  | .ei => [0xFB]
  | .im0 => [0xED, 0x46]
  | .im1 => [0xED, 0x56]
  | .im2 => [0xED, 0x5E]

/-! ### `disassemble` -/

/-- Two hexadecimal digits a byte, most significant first. -/
def hexByte (b : Byte) : String :=
  String.ofList [Nat.digitChar (b.toNat / 16), Nat.digitChar (b.toNat % 16)]

/-- An 8-bit operand in hexadecimal. -/
def hex8 (b : Byte) : String := "0x" ++ hexByte b

/-- A 16-bit operand in hexadecimal. -/
def hex16 (w : Word) : String := "0x" ++ hexByte (hiByte w) ++ hexByte (loByte w)

/-- `disassemble` (R109, R200): the mnemonic of R201 with its operand in hexadecimal. No rule of the engine reads the
text, and its layout is the model's (DESIGN CHOICE, log 17). -/
def disassemble : Instr → String
  | .nop => "NOP"
  | .call nn => "CALL " ++ hex16 nn
  | .ldAImm n => "LD A," ++ hex8 n
  | .ldSpImm nn => "LD SP," ++ hex16 nn
  | .ldMemA nn => "LD (" ++ hex16 nn ++ "),A"
  | .ldAMem nn => "LD A,(" ++ hex16 nn ++ ")"
  | .jp nn => "JP " ++ hex16 nn
  | .ret => "RET"
  | .outPortA n => "OUT (" ++ hex8 n ++ "),A"
  | .inAPort n => "IN A,(" ++ hex8 n ++ ")"
  | .di => "DI"
  | .ei => "EI"
  | .im0 => "IM 0"
  | .im1 => "IM 1"
  | .im2 => "IM 2"

/-! ### The opcode table's words -/

/-- The bytes of an instruction whose bits the opcode table numbers as `w`, `nbits` of them, at the lowest address
first, up to the longest instruction. The table gives byte 0 the bits 7:0, but writes its rows of format ED as one
number with byte 0 (the prefix) in bits 15:8 (their `match` is 0xED46, "byte 0 then byte 1, in fetch order"), and
spec/98_reader.md says that the spec's words win: a 16-bit word of one of those three values is laid out prefix
first. No other instruction has a word of these values, because 0x46, 0x56 and 0x5E are no byte 0 of TD. Log 14. -/
def tableBytes (nbits w : Nat) : List Byte :=
  if nbits = 16 ∧ w / 256 = 0xED ∧ (rowsED.lookup (BitVec.ofNat 8 w)).isSome then
    [edPrefix, BitVec.ofNat 8 w, 0]
  else
    [BitVec.ofNat 8 (w % 2 ^ nbits), BitVec.ofNat 8 (w % 2 ^ nbits / 256), BitVec.ofNat 8 (w % 2 ^ nbits / 65536)]

/-- The instruction the decoder reads from an instruction word numbered as spec/opcode_table.json numbers it. -/
def decodeTableWord (nbits w : Nat) : Option Instr :=
  match decode (tableBytes nbits w) with
  | .ok (i, _) => some i
  | .error _ => none

end Sys2Proof
end

