-- ==== Sys2Proof/Machine/State.lean ====
section
/-! DEFINITION. The state of the engine (10_state.md) as plain data, over the types that the spec leaves to its parameters
(00_scope.md R10, R11, R13): `δ` is the decoder's `DecState`, `ι` its `Instr`, `α` its `Args`, `ε` is `Ext`, and `σ` is
what the devices hold. The two parameters themselves, `Decoder` and `Devices`. The machine of this package, the engine
with the types of the test decoder TD; the reasons a step or a host action can stop; the state after reset (R41–R49). -/

namespace Sys2Proof.Machine

/-- `RF = (PC, IE, IM, EXT)` (10_state.md R22–R29), with `EXT` of the parameter type `ε` (R28, 00_scope.md R11). -/
structure RegFile (ε : Type) where
  pc : Word
  ie : Bool
  im : InterruptMode
  ext : ε
deriving DecidableEq, Repr

/-- An Address at the engine's call boundary: a natural number (20_memory.md R63). -/
abbrev Address := Nat

/-- Memory: the cells that do not hold 0x00, by rising address (10_state.md R34, R47). -/
abbrev Memory := List Host.Cell

/-- The I/O Map: the bound ports with their device, by rising port number (10_state.md R35). -/
abbrev IoMap := List (Nat × DeviceId)

/-- Where a fed byte came from (10_state.md R33). -/
inductive FeedSource where
  | normal (addr : Word)
  | injected
deriving DecidableEq, Repr

/-- The fatal faults with the information each records (60_exceptions.md R300). -/
inductive FatalFault where
  /-- code 1: a normal fetch fed `DECODE_BUDGET` bytes without completing (R302) -/
  | decodeFault (start : Word) (fed : Nat)
  /-- code 2: an entry of a read list is a port with no binding (R303) -/
  | unboundPortRead (port : Byte) (address : Address)
  /-- code 3: delivery in mode 0 or 2 with policy `Reject` (R306) -/
  | unsupportedInterruptMode (mode : InterruptMode)
  /-- code 4: the third injected byte yields `Incomplete` (R304) -/
  | injectionIncomplete
deriving DecidableEq, Repr

/-- The events of the history (10_state.md R33). -/
inductive Event (ι α : Type) where
  | fed (b : Byte) (src : FeedSource)
  | portRead (p : Byte) (d : DeviceId) (v : Byte)
  | portWrite (p : Byte) (d : DeviceId) (v : Byte)
  | unboundPortWrite (p : Byte) (v : Byte)
  | interruptDelivered (m : InterruptMode)
  | stepReturn (ins : ι) (args : α)
  | fault (f : FatalFault)
deriving DecidableEq, Repr

/-- Why a step stops with no next state. -/
inductive Fault where
  /-- Raised by `step` alone, on a machine whose `FAULT` is already set: "A machine whose `FAULT` is not `None` has no
  further step" (10_state.md R36, 42_engine_step.md R141). Safe: the hardware has no step there either. The step that
  RAISES a fatal fault has a next state, the one R157 and R300 describe (log 8). -/
  | machineFaulted (f : FatalFault)
deriving DecidableEq, Repr

/-- Why a request is refused; none of these is a machine event (60_exceptions.md R308). -/
inductive Refusal where
  /-- An instruction with no meaning in the model; raised by no arm of `exec`. Safe. -/
  | notModelled (mnemonic : String)
  /-- Raised by `bind` after the first step (41_address_dispatch.md R131). Safe. -/
  | bindAfterStart
  /-- Raised by `bind` on a port number above 255 (41_address_dispatch.md R132). Safe. -/
  | bindPortOutOfRange
  /-- Raised by `launch` on a decoder whose state is not reset after `Complete` (40_decoder_contract.md R102). Safe. -/
  | decoderNotReset
  /-- Raised by `launch` on a `DECODE_BUDGET` below the decoder's longest instruction (00_scope.md R7, log 2). Safe. -/
  | budgetTooSmall
  /-- Raised by `loadImage` after the first step (70_reset_and_hazards.md R403, log 11). Safe. -/
  | loadAfterStart
deriving DecidableEq, Repr

end Sys2Proof.Machine

namespace Sys2Proof.Engine
open Sys2Proof.Machine

/-- The aggregate of 10_state.md R21, with the launch parameters (00_scope.md R14) and what the devices hold
(41_address_dispatch.md R129). -/
structure State (δ ι α ε σ : Type) where
  /-- The register file (R22–R29). -/
  rf : RegFile ε
  /-- `PEND`, the Interrupt Latch (R30). -/
  pend : Bool
  /-- `DEC`, the decoder's state (R31). -/
  dec : δ
  /-- `Mem` (R34). -/
  mem : Memory
  /-- `IOMAP` (R35). -/
  iomap : IoMap
  /-- `FAULT` (R36). -/
  fault : Option FatalFault
  /-- `HIST` (R33), NEWEST FIRST; `State.hist` gives it in the order of happening (log 9). -/
  histRev : List (Event ι α)
  /-- `DECODE_BUDGET`, `IM_UNSUPPORTED_POLICY` and the declared ports of `DEVICES` (R13, R14); no step writes them. -/
  params : Params
  /-- What the devices hold inside, outside the engine (20_memory.md R58, R60); reached by their `read` and `write`. -/
  dev : σ
deriving DecidableEq, Repr

/-- The launch parameters that give the machine its reset values (00_scope.md R14), `RESET_EXT` among them, and the
devices' part of `DEVICES`: their declared ports (in `params`) and what they hold at first. `IMAGE` and `IOMAP` come
through `loadImage` and `bindDevice`. -/
structure Launch (ε σ : Type) where
  params : Params
  resetIe : Bool
  resetIm : InterruptMode
  resetExt : ε
  dev : σ
deriving DecidableEq, Repr

/-- The functions of a decoder as a launch offers them (40_decoder_contract.md R100–R109), over its types `δ` of `DecState`,
`ι` of `Instr`, `α` of `Args`, and the parameter type `ε` of `Ext` (R11), which only `readAddresses` and `execute` see. -/
structure DecoderParts (δ ι α ε : Type) where
  /-- `dec_init` (R100). -/
  decInit : δ
  /-- `feed` (R101). -/
  feed : Feed δ ι α
  /-- `read_addresses(ins, RF, args)` (R106). -/
  readAddresses : ι → RegFile ε → α → List Address
  /-- `execute(ins, RF, data, args)` (R107). -/
  execute : ι → RegFile ε → List Byte → α → RegFile ε × List (Address × Byte)
  /-- `disassemble(ins, args)` (R109). -/
  disassemble : ι → α → String

/-- What a decoder must meet beyond what its types say (R102); the rest of the contract is in the types (R108, log 15). -/
def DecoderParts.Contract {δ ι α ε : Type} (P : DecoderParts δ ι α ε) : Prop := FeedContract P.decInit P.feed

/-- R7, for any decoder: `DECODE_BUDGET` "must be at least the length of the longest instruction the `Decoder` parameter
completes". -/
def DecoderParts.BudgetCovers {δ ι α ε : Type} (P : DecoderParts δ ι α ε) (p : Params) : Prop :=
  LongestAtMost P.decInit P.feed p.decodeBudget.val

/-- The parameter `Decoder` (R10): functions that keep the contract. The engine takes no others, and `launch` refuses them
(60_exceptions.md R308). -/
structure Decoder (δ ι α ε : Type) extends DecoderParts δ ι α ε where
  /-- The state is reset after `Complete` (R102). -/
  contract : toDecoderParts.Contract

/-- The parameter `DEVICES` as the engine calls it (00_scope.md R13; 41_address_dispatch.md R128, R129): what the device
with an identifier answers to `read(port)` and how `write(port, value)` changes it, over the type `σ` of what the devices
hold. Both are total: every call returns (R128, log 18). A move a device makes of its own between two calls of one step
(20_memory.md R60) is part of the later call's `read` or `write` (DESIGN CHOICE, log 21). -/
structure Devices (σ : Type) where
  read : σ → DeviceId → Byte → Byte × σ
  write : σ → DeviceId → Byte → Byte → σ

/-- Creation of the machine (70_reset_and_hazards.md R400, R403 step 1; 10_state.md R41–R49), with a decoder's `dec_init`. -/
def State.create {δ ι α ε σ : Type} (init : δ) (l : Launch ε σ) : State δ ι α ε σ :=
  { rf := { pc := 0x0000, ie := l.resetIe, im := l.resetIm, ext := l.resetExt }
    pend := false
    dec := init
    mem := []
    iomap := []
    fault := none
    histRev := []
    params := l.params
    dev := l.dev }

end Sys2Proof.Engine

namespace Sys2Proof.Machine
open Sys2Proof.Engine (Decoder Devices)

/-! ### The machine of this package: TD, and devices that may answer anything -/

/-- TD's `Ext` (43_instruction_set.md R200): every CPU-visible register beyond `PC`, `IE` and `IM` (10_state.md R28). -/
structure Ext where
  a : Byte
  sp : Word
deriving DecidableEq, Repr

/-- What the devices hold when nothing is assumed of them (41_address_dispatch.md R128): an oracle (log 7). -/
structure Oracle where
  /-- The answers the environment has chosen for coming device reads, oldest first. -/
  answers : List (DeviceId × Byte)
  /-- How many free device bytes have been drawn. -/
  draws : Nat
deriving DecidableEq, Repr

/-- The state of the machine: the engine's, over TD's types and the oracle. -/
abbrev State := Engine.State DecState Instr (List Byte) Ext Oracle

/-- A launch of it. -/
abbrev Launch := Engine.Launch Ext Oracle

/-- The spec's defaults for `RESET_IE` and `RESET_IM` (R9, log 3); `RESET_EXT` has none, and zeroes are taken as in
95_test_vectors.md §3 (DESIGN CHOICE, log 4); no device, and an empty oracle (logs 6 and 7). -/
def Launch.default : Launch :=
  { params := Config.defaultParams
    resetIe := false
    resetIm := .mode0
    resetExt := { a := 0x00, sp := 0x0000 }
    dev := { answers := [], draws := 0 } }

/-- Creation with TD's `dec_init`. -/
def State.create (l : Launch) : State := Engine.State.create decInit l

/-- The machine right after reset, with the default launch parameters. -/
def State.reset : State := State.create Launch.default

end Sys2Proof.Machine
end

