-- ==== Sys2Proof/Machine/Ops.lean ====
section
/-! DEFINITION. The named operations of the engine: keyed lists, Memory, address dispatch (41_address_dispatch.md), the
history, faults, interrupt delivery and injection, normal fetch, operand gather and commit (42_engine_step.md), and the
step of the engine with any decoder and any devices: each is a function of the parameters it uses and is written over
every type they may have (00_scope.md R10, R11, R13; log 1). -/

namespace Sys2Proof.Engine
open Sys2Proof.Machine

/-- `HIST`, in the order of happening (R33). -/
def State.hist {δ ι α ε σ : Type} (s : State δ ι α ε σ) : List (Event ι α) := s.histRev.reverse

end Sys2Proof.Engine

namespace Sys2Proof.Machine
open Sys2Proof.Engine (Decoder Devices)

-- The types of a decoder's state, instructions and arguments, of `Ext`, and of what the devices hold.
variable {δ ι α ε σ : Type}

/-! ### Lists keyed by a natural number, in one canonical form -/

/-- Sets the value of key `k`, keeping the keys strictly rising. -/
def assocInsert {β : Type} (k : Nat) (v : β) : List (Nat × β) → List (Nat × β)
  | [] => [(k, v)]
  | e :: rest =>
    if k < e.1 then (k, v) :: e :: rest
    else if k = e.1 then (k, v) :: rest
    else e :: assocInsert k v rest

/-- Removes key `k`. -/
def assocErase {β : Type} (k : Nat) (l : List (Nat × β)) : List (Nat × β) := l.filter fun e => e.1 != k

/-- The keys are strictly rising. -/
abbrev AssocSorted {β : Type} (l : List (Nat × β)) : Prop := l.Pairwise fun x y => x.1 < y.1

/-! ### Memory (20_memory.md R50–R57) -/

/-- What an unlisted address reads as: "every cell the loader did not write is 0x00" (10_state.md R47). -/
def Memory.unlisted : Byte := 0x00

/-- The canonical form: addresses strictly rising and below 0x10000, no entry equal to what an unlisted address reads as. -/
abbrev Memory.wf (m : Memory) : Prop := AssocSorted m ∧ ∀ c ∈ m, c.1 < 0x10000 ∧ c.2 ≠ Memory.unlisted

/-- `MemRead(a, 1)` (R56). -/
def readByte (m : Memory) (a : Word) : Byte := (m.lookup a.toNat).getD Memory.unlisted

/-- `MemWrite(a, 1, v)` (R57). -/
def writeByte (m : Memory) (a : Word) (v : Byte) : Memory :=
  if v = Memory.unlisted then assocErase a.toNat m else assocInsert a.toNat v m

/-- The `n` bytes of Memory from `a` upwards, wrapping at 0xFFFF (R51). -/
def readBytes (m : Memory) (a : Word) : Nat → List Byte
  | 0 => []
  | n + 1 => readByte m a :: readBytes m (a + 1) n

/-- Stores bytes from `a` upwards, wrapping at 0xFFFF. -/
def writeBytes (m : Memory) (a : Word) : List Byte → Memory
  | [] => m
  | b :: bs => writeBytes (writeByte m a b) (a + 1) bs

/-! ### The I/O Map (41_address_dispatch.md R129–R133) -/

/-- Port numbers strictly rising and at most 255. -/
abbrev IoMap.wf (io : IoMap) : Prop := AssocSorted io ∧ ∀ e ∈ io, e.1 < 256

/-- `IOMAP(p)`. -/
def deviceAt (io : IoMap) (p : Byte) : Option DeviceId := io.lookup p.toNat

/-- `bind` on the map alone: each listed port goes to the device, over any earlier binding (R130). -/
def bindPorts (ports : List Nat) (d : DeviceId) (io : IoMap) : IoMap :=
  ports.foldl (fun io p => assocInsert p d io) io

/-! ### The history and faults (10_state.md R33, 60_exceptions.md R300) -/

/-- `emit` appends an event to the history. -/
def emit (e : Event ι α) (s : Engine.State δ ι α ε σ) : Engine.State δ ι α ε σ := { s with histRev := e :: s.histRev }

/-- `raise`: a fatal fault sets `FAULT` and appends `Fault(code, info)` (R300). Nothing done before is undone and no
handler runs (R157, R301). -/
def raiseFault (f : FatalFault) (s : Engine.State δ ι α ε σ) : Engine.State δ ι α ε σ := emit (.fault f) { s with fault := some f }

/-- The code of a fatal fault (R300). -/
def FatalFault.code : FatalFault → Nat
  | .decodeFault _ _ => 1
  | .unboundPortRead _ _ => 2
  | .unsupportedInterruptMode _ => 3
  | .injectionIncomplete => 4

/-- The code of the recoverable `UnboundPortWrite` (R300). -/
def unboundPortWriteCode : Nat := 16

/-! ### Address dispatch (41_address_dispatch.md R120–R128) -/

/-- What an Address names (R120). -/
inductive Target where
  | mem (m : Word)
  | port (p : Byte)
deriving DecidableEq, Repr

/-- `classify(a)`: below 0x10000 a memory cell, else the port `a & 0xFF` (R120). -/
def classify (a : Address) : Target :=
  if a < 0x10000 then .mem (BitVec.ofNat 16 a) else .port (BitVec.ofNat 8 a)

/-- The oldest answer the environment has chosen for device `d`, with the answers left. -/
def takeAnswer (d : DeviceId) : List (DeviceId × Byte) → Option (Byte × List (DeviceId × Byte))
  | [] => none
  | e :: rest =>
    if e.1 = d then some (e.2, rest)
    else (takeAnswer d rest).map fun r => (r.1, e :: r.2)

/-- The oracle's answer: "any byte in [0, 255], unless a claim assumes a model of the device" (R128). The byte is the
environment's, if it has chosen one for the device, else the free value (log 7). -/
def oracleRead (o : Oracle) (d : DeviceId) (p : Byte) : Byte × Oracle :=
  match takeAnswer d o.answers with
  | some r => (r.1, { o with answers := r.2 })
  | none => (Config.deviceByte d p o.draws, { o with draws := o.draws + 1 })

/-- `DEVICES` when nothing is assumed of them: a read is answered by the oracle, and a write changes no later answer,
because every answer is open already (R128, log 7). -/
def oracle : Devices Oracle := { read := oracleRead, write := fun o _ _ _ => o }

/-- `resolve_read(a)` (R122–R124): the byte and the state after the read, or the state a fatal fault left. -/
def resolveRead (V : Devices σ) (a : Address) (s : Engine.State δ ι α ε σ) : Except (Engine.State δ ι α ε σ) (Byte × Engine.State δ ι α ε σ) :=
  match classify a with
  | .mem m => .ok (readByte s.mem m, s)
  | .port p =>
    match deviceAt s.iomap p with
    | some d =>
      .ok ((V.read s.dev d p).1, emit (.portRead p d (V.read s.dev d p).1) { s with dev := (V.read s.dev d p).2 })
    | none => .error (raiseFault (.unboundPortRead p a) s)

/-- `resolve_write(a, v)` (R125–R127): never fatal. -/
def resolveWrite (V : Devices σ) (a : Address) (v : Byte) (s : Engine.State δ ι α ε σ) : Engine.State δ ι α ε σ :=
  match classify a with
  | .mem m => { s with mem := writeByte s.mem m v }
  | .port p =>
    match deviceAt s.iomap p with
    | some d => emit (.portWrite p d v) { s with dev := V.write s.dev d p v }
    | none => emit (.unboundPortWrite p v) s

/-! ### Operand gather, execute, commit (42_engine_step.md R151–R155) -/

/-- Operand gather: `resolve_read` on each entry, in list order; the first fatal fault ends it (R151). -/
def gather (V : Devices σ) : List Address → Engine.State δ ι α ε σ → Except (Engine.State δ ι α ε σ) (List Byte × Engine.State δ ι α ε σ)
  | [], s => .ok ([], s)
  | a :: as, s =>
    match resolveRead V a s with
    | .error t => .error t
    | .ok (v, s1) =>
      match gather V as s1 with
      | .error t => .error t
      | .ok (vs, t) => .ok (v :: vs, t)

/-- Commit: `resolve_write` on each entry, in list order (R154). -/
def commit (V : Devices σ) : List (Address × Byte) → Engine.State δ ι α ε σ → Engine.State δ ι α ε σ
  | [], s => s
  | w :: ws, s => commit V ws (resolveWrite V w.1 w.2 s)

/-- The end of a step for a completed instruction `(i, args)` (R151–R155): gather its read list, `execute` it once on the
register file the read list saw (R110) and the gathered bytes, store the register file it returns, commit its write
list, return `(i, args)`. `reads` and `execute` are the instruction's functions of R106 and R107. A fatal fault in the
gather is the state it leaves, with `FAULT` set (R157, log 8). -/
def runInstr (V : Devices σ) (i : ι) (args : α) (reads : RegFile ε → List Address)
    (execute : RegFile ε → List Byte → RegFile ε × List (Address × Byte)) (s : Engine.State δ ι α ε σ) :
    Host.Outcome (Engine.State δ ι α ε σ) Fault Refusal :=
  match gather V (reads s.rf) s with
  | .error t => .next t
  | .ok (data, s1) =>
    .next (emit (.stepReturn i args)
      (commit V (execute s.rf data).2 { s1 with rf := (execute s.rf data).1 }))

/-! ### Interrupts (42_engine_step.md R142–R148, 60_exceptions.md R310–R315) -/

/-- `raise_interrupt()`, a transition of its own between two steps (R310, R311). -/
def raiseInterrupt (s : Engine.State δ ι α ε σ) : Engine.State δ ι α ε σ := { s with pend := true }

/-- TAKING AN INTERRUPT, what every delivery does whatever the mode: `IE` and `PEND` are cleared and the delivery is
recorded; nothing is saved (R145, R315). What is pushed and where control goes in mode 1 is the injected instruction's
own effect (R158). There is no return operation to go with it: "The engine has no return-from-interrupt of its own and
restores nothing" (R317). -/
def deliver (s : Engine.State δ ι α ε σ) : Engine.State δ ι α ε σ :=
  emit (.interruptDelivered s.rf.im) { s with rf := { s.rf with ie := false }, pend := false }

/-- One injected feed: `PC` is not advanced and Memory is not read (R146). -/
def feedInjected (f : Feed δ ι α) (b : Byte) (s : Engine.State δ ι α ε σ) : Engine.State δ ι α ε σ :=
  emit (.fed b .injected) { s with dec := (f s.dec b).1 }

/-- Injection in mode 1: `CD`, `38`, `00` through `feed`; the third feed's result is the instruction, or the fault
`InjectionIncomplete` (R146, R147). -/
def inject (f : Feed δ ι α) (s : Engine.State δ ι α ε σ) : Except (Engine.State δ ι α ε σ) (ι × α × Engine.State δ ι α ε σ) :=
  match (f (feedInjected f 0x38 (feedInjected f 0xCD s)).dec 0x00).2 with
  | .complete i args => .ok (i, args, feedInjected f 0x00 (feedInjected f 0x38 (feedInjected f 0xCD s)))
  | .incomplete =>
    .error (raiseFault .injectionIncomplete (feedInjected f 0x00 (feedInjected f 0x38 (feedInjected f 0xCD s))))

/-! ### Normal fetch (42_engine_step.md R149, R150) -/

/-- One feed of a normal fetch: the byte at `PC` is fed, the event appended, `PC` advanced modulo 0x10000 (R149, R23). -/
def feedNormal (f : Feed δ ι α) (s : Engine.State δ ι α ε σ) : Engine.State δ ι α ε σ :=
  emit (.fed (readByte s.mem s.rf.pc) (.normal s.rf.pc))
    { s with dec := (f s.dec (readByte s.mem s.rf.pc)).1, rf := { s.rf with pc := s.rf.pc + 1 } }

/-- The fetch loop: at most `n + 1` more bytes, then `DecodeFault` (R149, R150). -/
def fetchLoop (f : Feed δ ι α) (fault : FatalFault) : Nat → Engine.State δ ι α ε σ → Except (Engine.State δ ι α ε σ) (ι × α × Engine.State δ ι α ε σ)
  | n, s =>
    match (f s.dec (readByte s.mem s.rf.pc)).2 with
    | .complete i args => .ok (i, args, feedNormal f s)
    | .incomplete =>
      match n with
      | 0 => .error (raiseFault fault (feedNormal f s))
      | n + 1 => fetchLoop f fault n (feedNormal f s)

/-- Normal fetch with at most `DECODE_BUDGET` bytes (R149, R150). -/
def fetch (f : Feed δ ι α) (s : Engine.State δ ι α ε σ) : Except (Engine.State δ ι α ε σ) (ι × α × Engine.State δ ι α ε σ) :=
  fetchLoop f (.decodeFault s.rf.pc s.params.decodeBudget.val) (s.params.decodeBudget.val - 1) s

/-- The condition for delivery: `PEND = 1 and IE = 1` (R142). -/
def deliveryDue (s : Engine.State δ ι α ε σ) : Bool := s.pend && s.rf.ie

/-- The instruction of the step (R140 parts 1 and 2): on delivery in mode 1 the injected one; on delivery in mode 0 or 2
a fatal fault or, with policy `NoOp`, a normal fetch; with no delivery a normal fetch (R142–R148). -/
def acquire (f : Feed δ ι α) (s : Engine.State δ ι α ε σ) : Except (Engine.State δ ι α ε σ) (ι × α × Engine.State δ ι α ε σ) :=
  if deliveryDue s then
    match s.rf.im with
    | .mode1 => inject f (deliver s)
    | m =>
      match s.params.imPolicy with
      | .reject => .error (raiseFault (.unsupportedInterruptMode m) (deliver s))
      | .noOp => fetch f (deliver s)
  else fetch f s

/-- `step()` (R140) with a decoder's `feed` and a meaning for its completed instructions. -/
def stepWith (f : Feed δ ι α) (run : ι → α → Engine.State δ ι α ε σ → Host.Outcome (Engine.State δ ι α ε σ) Fault Refusal) (s : Engine.State δ ι α ε σ) :
    Host.Outcome (Engine.State δ ι α ε σ) Fault Refusal :=
  match s.fault with
  | some e => .fault (.machineFaulted e)
  | none =>
    match acquire f s with
    | .error t => .next t
    | .ok (i, args, t) => run i args t

/-- What a completed instruction of the decoder `D` does, with the devices `V` (R105–R107, R151–R155). -/
def runDecoded (D : Decoder δ ι α ε) (V : Devices σ) (i : ι) (args : α) (s : Engine.State δ ι α ε σ) : Host.Outcome (Engine.State δ ι α ε σ) Fault Refusal :=
  runInstr V i args (fun rf => D.readAddresses i rf args) (fun rf data => D.execute i rf data args) s

/-- THE STEP OF THE ENGINE (R140) with its parameters `Decoder` and `DEVICES` (00_scope.md R10, R13, R14). -/
def engineStep (D : Decoder δ ι α ε) (V : Devices σ) (s : Engine.State δ ι α ε σ) : Host.Outcome (Engine.State δ ι α ε σ) Fault Refusal :=
  stepWith D.feed (runDecoded D V) s

/-! ### Before the first step (70_reset_and_hazards.md R403) -/

/-- The launch of a machine with a decoder's functions: if they break the contract (R102) the whole launch is refused
(60_exceptions.md R308), and so it is if `DECODE_BUDGET` is below the decoder's longest instruction (00_scope.md R7, log
2); else the machine is created and the engine may step it with them. Both speak of every list of bytes the decoder may
be fed, so whether they hold is an argument (log 15). -/
def launch (P : Engine.DecoderParts δ ι α ε) [Decidable P.Contract] (l : Engine.Launch ε σ)
    [Decidable (P.BudgetCovers l.params)] : Except Refusal (Decoder δ ι α ε × Engine.State δ ι α ε σ) :=
  if h : P.Contract then
    if P.BudgetCovers l.params then .ok ({ P with contract := h }, Engine.State.create P.decInit l)
    else .error .budgetTooSmall
  else .error .decoderNotReset

/-- Whether a step has been made: `HIST` is empty at reset (R48), and every step appends to it. -/
def started (s : Engine.State δ ι α ε σ) : Bool := !s.histRev.isEmpty

/-- The loader writes the image, byte by byte in list order (R12, R47, R403); refused after the first step (log 11). -/
def loadImage (image : List (Word × Byte)) (s : Engine.State δ ι α ε σ) : Host.Outcome (Engine.State δ ι α ε σ) Fault Refusal :=
  if started s then .refused .loadAfterStart
  else .next { s with mem := image.foldl (fun m c => writeByte m c.1 c.2) s.mem }

/-- `bind(port_numbers, device)` (R130), refused after the first step (R131) and on a port above 255 (R132). -/
def bindDevice (ports : List Nat) (d : DeviceId) (s : Engine.State δ ι α ε σ) : Host.Outcome (Engine.State δ ι α ε σ) Fault Refusal :=
  if started s then .refused .bindAfterStart
  else if portsWellFormed ports then .next { s with iomap := bindPorts ports d s.iomap }
  else .refused .bindPortOutOfRange

/-- The ports a device declares (R129); none, for a device the launch does not have. -/
def claimedPorts (p : Params) (d : DeviceId) : List Nat := (p.claims.lookup d).getD []

/-- Setup binds a device to the ports it declares (R129, R130; log 6). -/
def attachDevice (d : DeviceId) (s : Engine.State δ ι α ε σ) : Host.Outcome (Engine.State δ ι α ε σ) Fault Refusal :=
  bindDevice (claimedPorts s.params d) d s

/-- Between two steps the devices may move on threads of their own (10_state.md R20, 20_memory.md R60): what they hold
becomes `dev`. They reach nothing else. That they move only between steps is the model's choice (DESIGN CHOICE, log 21):
R60 lets a device's own thread act between two port calls of ONE step too, and such a move must be folded into the `read`
and `write` of the `Devices` the engine is given. -/
def devicesMove (dev : σ) (s : Engine.State δ ι α ε σ) : Engine.State δ ι α ε σ := { s with dev := dev }

end Sys2Proof.Machine
end

