-- ==== Sys2Proof/Machine/Operands.lean ====
section
/-! DEFINITION. The operand forms of TD (43_instruction_set.md R200–R211): the Addresses an operand names, the register
writes of `execute`, and the shapes of an instruction's read list. TD wraps its own address sums
(70_reset_and_hazards.md R413): they are sums of words. -/

namespace Sys2Proof.Machine

/-- The Address of the memory cell `nn` (R206, R207): below 0x10000. -/
def memAddress (nn : Word) : Address := nn.toNat

/-- The Address of port `n`: `0x10000 + n` (R210, R211). -/
def portAddress (n : Byte) : Address := 0x10000 + n.toNat

/-- The write list of a push: the high byte at SP − 1, then the low byte at SP − 2 (R203). -/
def pushWrites (sp value : Word) : List (Address × Byte) :=
  [(memAddress (sp - 1), hiByte value), (memAddress (sp - 2), loByte value)]

/-- The read list of a pop: SP, then SP + 1 (R209). -/
def popReads (sp : Word) : List Address := [memAddress sp, memAddress (sp + 1)]

/-- `RF with PC = w`. -/
def RegFile.setPc {ε : Type} (w : Word) (rf : RegFile ε) : RegFile ε := { rf with pc := w }

/-- `RF with EXT.A = b`. -/
def RegFile.setA (b : Byte) (rf : RegFile Ext) : RegFile Ext := { rf with ext := { rf.ext with a := b } }

/-- `RF with EXT.SP = w`. -/
def RegFile.setSp (w : Word) (rf : RegFile Ext) : RegFile Ext := { rf with ext := { rf.ext with sp := w } }

/-- The two functions a completed instruction of TD offers the engine (40_decoder_contract.md R105–R107), its operands
in it: `read_addresses` and `execute`. -/
structure Offer where
  reads : RegFile Ext → List Address
  execute : RegFile Ext → List Byte → RegFile Ext × List (Address × Byte)

/-- An instruction with an empty read list: `execute` gets no data (R106). -/
def noRead (execute : RegFile Ext → RegFile Ext × List (Address × Byte)) : Offer :=
  { reads := fun _ => [], execute := fun rf _ => execute rf }

/-- An instruction that reads one Address. `execute` is called with exactly one byte (R107); the other shape of the
data list does not occur (log 16). -/
def readOne (read : Address) (execute : RegFile Ext → Byte → RegFile Ext × List (Address × Byte)) : Offer :=
  { reads := fun _ => [read]
    execute := fun rf data =>
      match data with
      | [d] => execute rf d
      | _ => (rf, []) }

/-- An instruction that pops a word: it reads SP, then SP + 1; `execute` is called with exactly two bytes (R107), low
byte first; no other shape of the data list occurs (log 16). -/
def pop (execute : RegFile Ext → Word → RegFile Ext × List (Address × Byte)) : Offer :=
  { reads := fun rf => popReads rf.ext.sp
    execute := fun rf data =>
      match data with
      | [lo, hi] => execute rf (leWord lo hi)
      | _ => (rf, []) }

/-- The end of a step for an instruction of TD that makes the offer `o` (42_engine_step.md R151–R155). -/
def runOffer (i : Instr) (o : Offer) (s : State) : Host.Outcome State Fault Refusal :=
  runInstr oracle i i.args o.reads o.execute s

end Sys2Proof.Machine
end

