-- ==== Sys2Proof/Machine/Control.lean ====
section
/-! DEFINITION. NOP and the control transfers of TD (43_instruction_set.md R202, R203, R208, R209). `rf.pc` is the
address after the instruction, or the unchanged `PC` on injection (10_state.md R24). -/

namespace Sys2Proof.Machine

/-- `read_addresses` and `execute` of `NOP` (R202). -/
def nopOffer : Offer := noRead fun rf => (rf, [])

/-- `NOP` (R202). -/
def execNop (s : State) : Host.Outcome State Fault Refusal := runOffer .nop nopOffer s

/-- `read_addresses` and `execute` of `CALL nn` (R203). -/
def callOffer (nn : Word) : Offer :=
  noRead fun rf => ((rf.setPc nn).setSp (rf.ext.sp - 2), pushWrites rf.ext.sp rf.pc)

/-- `CALL nn` (R203). -/
def execCall (nn : Word) (s : State) : Host.Outcome State Fault Refusal := runOffer (.call nn) (callOffer nn) s

/-- `read_addresses` and `execute` of `JP nn` (R208). -/
def jpOffer (nn : Word) : Offer := noRead fun rf => (rf.setPc nn, [])

/-- `JP nn` (R208). -/
def execJp (nn : Word) (s : State) : Host.Outcome State Fault Refusal := runOffer (.jp nn) (jpOffer nn) s

/-- `read_addresses` and `execute` of `RET` (R209). -/
def retOffer : Offer := pop fun rf w => ((rf.setPc w).setSp (rf.ext.sp + 2), [])

/-- `RET` (R209). -/
def execRet (s : State) : Host.Outcome State Fault Refusal := runOffer .ret retOffer s

end Sys2Proof.Machine
end

