-- ==== Sys2Proof/Machine/Flags.lean ====
section
/-! DEFINITION. The engine holds no condition flags, and TD has no flag register (10_state.md R38,
43_instruction_set.md R200): no instruction computes a flag. The status bits the engine holds are `IE` and `PEND`
(R38), beside the mode `IM`; this file has the writes of `IE` and `IM` by an instruction's `execute`. `PEND` is written
by `raiseInterrupt` and `deliver` alone (60_exceptions.md R312). -/

namespace Sys2Proof.Machine

/-- `RF with IE = b` (R212, R213). -/
def RegFile.setIe {ε : Type} (b : Bool) (rf : RegFile ε) : RegFile ε := { rf with ie := b }

/-- `RF with IM = m` (R214–R216). -/
def RegFile.setIm {ε : Type} (m : InterruptMode) (rf : RegFile ε) : RegFile ε := { rf with im := m }

end Sys2Proof.Machine
end

