-- ==== Sys2Proof/Machine/InterruptControl.lean ====
section
/-! DEFINITION. The instructions of TD that write `IE` and `IM` (43_instruction_set.md R212–R216). None of them is
privileged (60_exceptions.md R320), and none changes `PEND` (R312). -/

namespace Sys2Proof.Machine

/-- `read_addresses` and `execute` of `DI` (R212). -/
def diOffer : Offer := noRead fun rf => (rf.setIe false, [])

/-- `DI` (R212). -/
def execDi (s : State) : Host.Outcome State Fault Refusal := runOffer .di diOffer s

/-- `read_addresses` and `execute` of `EI` (R213); no delay follows it (70_reset_and_hazards.md R412). -/
def eiOffer : Offer := noRead fun rf => (rf.setIe true, [])

/-- `EI` (R213); no delay follows it (70_reset_and_hazards.md R412). -/
def execEi (s : State) : Host.Outcome State Fault Refusal := runOffer .ei eiOffer s

/-- `read_addresses` and `execute` of `IM 0` (R214). -/
def im0Offer : Offer := noRead fun rf => (rf.setIm .mode0, [])

/-- `IM 0` (R214). -/
def execIm0 (s : State) : Host.Outcome State Fault Refusal := runOffer .im0 im0Offer s

/-- `read_addresses` and `execute` of `IM 1` (R215). -/
def im1Offer : Offer := noRead fun rf => (rf.setIm .mode1, [])

/-- `IM 1` (R215). -/
def execIm1 (s : State) : Host.Outcome State Fault Refusal := runOffer .im1 im1Offer s

/-- `read_addresses` and `execute` of `IM 2` (R216). -/
def im2Offer : Offer := noRead fun rf => (rf.setIm .mode2, [])

/-- `IM 2` (R216). -/
def execIm2 (s : State) : Host.Outcome State Fault Refusal := runOffer .im2 im2Offer s

end Sys2Proof.Machine
end

