-- ==== Sys2Proof/Machine/Load.lean ====
section
/-! DEFINITION. The load instructions of TD (43_instruction_set.md R204–R207). -/

namespace Sys2Proof.Machine

/-- `read_addresses` and `execute` of `LD A,n` (R204). -/
def ldAImmOffer (n : Byte) : Offer := noRead fun rf => (rf.setA n, [])

/-- `LD A,n` (R204). -/
def execLdAImm (n : Byte) (s : State) : Host.Outcome State Fault Refusal := runOffer (.ldAImm n) (ldAImmOffer n) s

/-- `read_addresses` and `execute` of `LD SP,nn` (R205). -/
def ldSpImmOffer (nn : Word) : Offer := noRead fun rf => (rf.setSp nn, [])

/-- `LD SP,nn` (R205). -/
def execLdSpImm (nn : Word) (s : State) : Host.Outcome State Fault Refusal := runOffer (.ldSpImm nn) (ldSpImmOffer nn) s

/-- `read_addresses` and `execute` of `LD (nn),A` (R206). -/
def ldMemAOffer (nn : Word) : Offer := noRead fun rf => (rf, [(memAddress nn, rf.ext.a)])

/-- `LD (nn),A` (R206). -/
def execLdMemA (nn : Word) (s : State) : Host.Outcome State Fault Refusal := runOffer (.ldMemA nn) (ldMemAOffer nn) s

/-- `read_addresses` and `execute` of `LD A,(nn)` (R207). -/
def ldAMemOffer (nn : Word) : Offer := readOne (memAddress nn) fun rf v => (rf.setA v, [])

/-- `LD A,(nn)` (R207). -/
def execLdAMem (nn : Word) (s : State) : Host.Outcome State Fault Refusal := runOffer (.ldAMem nn) (ldAMemOffer nn) s

end Sys2Proof.Machine
end

