-- ==== Sys2Proof/Machine/PortIo.lean ====
section
/-! DEFINITION. The port instructions of TD (43_instruction_set.md R210, R211). -/

namespace Sys2Proof.Machine

/-- `read_addresses` and `execute` of `OUT (n),A` (R210): to an unbound port it reports `UnboundPortWrite` and goes on. -/
def outPortAOffer (n : Byte) : Offer := noRead fun rf => (rf, [(portAddress n, rf.ext.a)])

/-- `OUT (n),A` (R210): to an unbound port it reports `UnboundPortWrite` and goes on. -/
def execOutPortA (n : Byte) (s : State) : Host.Outcome State Fault Refusal := runOffer (.outPortA n) (outPortAOffer n) s

/-- `read_addresses` and `execute` of `IN A,(n)` (R211): from an unbound port it raises the fatal `UnboundPortRead`, and `A` is not written. -/
def inAPortOffer (n : Byte) : Offer := readOne (portAddress n) fun rf v => (rf.setA v, [])

/-- `IN A,(n)` (R211): from an unbound port it raises the fatal `UnboundPortRead`, and `A` is not written. -/
def execInAPort (n : Byte) (s : State) : Host.Outcome State Fault Refusal := runOffer (.inAPort n) (inAPortOffer n) s

end Sys2Proof.Machine
end

