-- ==== Sys2Proof/Machine/Dispatch.lean ====
section
/-! DEFINITION. The meaning of every instruction (43_instruction_set.md R202–R216), one arm a constructor. -/

namespace Sys2Proof.Machine

def exec (i : Instr) (s : State) : Host.Outcome State Fault Refusal :=
  match i with
  | .nop => Sys2Proof.Machine.execNop s
  | .call nn => Sys2Proof.Machine.execCall nn s
  | .ldAImm n => Sys2Proof.Machine.execLdAImm n s
  | .ldSpImm nn => Sys2Proof.Machine.execLdSpImm nn s
  | .ldMemA nn => Sys2Proof.Machine.execLdMemA nn s
  | .ldAMem nn => Sys2Proof.Machine.execLdAMem nn s
  | .jp nn => Sys2Proof.Machine.execJp nn s
  | .ret => Sys2Proof.Machine.execRet s
  | .outPortA n => Sys2Proof.Machine.execOutPortA n s
  | .inAPort n => Sys2Proof.Machine.execInAPort n s
  | .di => Sys2Proof.Machine.execDi s
  | .ei => Sys2Proof.Machine.execEi s
  | .im0 => Sys2Proof.Machine.execIm0 s
  | .im1 => Sys2Proof.Machine.execIm1 s
  | .im2 => Sys2Proof.Machine.execIm2 s

end Sys2Proof.Machine
end

