-- ==== Sys2Proof/Machine/TestDecoder.lean ====
section
/-! DEFINITION. The test decoder TD as a value of the parameter `Decoder` (43_instruction_set.md R200). -/

namespace Sys2Proof.Machine

/-- `read_addresses` and `execute` of every instruction of TD (R202–R216). -/
def offer : Instr → Offer
  | .nop => nopOffer
  | .call nn => callOffer nn
  | .ldAImm n => ldAImmOffer n
  | .ldSpImm nn => ldSpImmOffer nn
  | .ldMemA nn => ldMemAOffer nn
  | .ldAMem nn => ldAMemOffer nn
  | .jp nn => jpOffer nn
  | .ret => retOffer
  | .outPortA n => outPortAOffer n
  | .inAPort n => inAPortOffer n
  | .di => diOffer
  | .ei => eiOffer
  | .im0 => im0Offer
  | .im1 => im1Offer
  | .im2 => im2Offer

/-- TD (R200). An `Instr` carries its operands, of which `args` is another writing, so its functions need no `args`
(log 15). -/
def testDecoder : Engine.Decoder DecState Instr (List Byte) Ext :=
  { decInit := decInit
    feed := feed
    readAddresses := fun i rf _ => (offer i).reads rf
    execute := fun i rf data _ => (offer i).execute rf data
    disassemble := fun i _ => disassemble i
    contract := feed_contract }

end Sys2Proof.Machine
end

