-- ==== Sys2Proof/Machine/Step.lean ====
section
/-! DEFINITION. The step of the machine (42_engine_step.md R140) and the host's way to place an instruction. -/

namespace Sys2Proof.Machine

/-- `step()` with TD's `feed` (R217) and the meanings of `exec`: it is `engineStep testDecoder oracle`, the step of the
engine with TD and the oracle (`step_eq_engineStep`). -/
def step (s : State) : Host.Outcome State Fault Refusal := stepWith testDecoder.feed (fun i _ => exec i) s

/-- The instruction whose table word is `w`, stored at `PC`, where the next normal fetch begins. A delivery would come
before that fetch and a partly fed decoder would not begin there, so a latch that would be delivered is cleared and the
decoder stands at `dec_init`; in an unfaulted state of a run with no delivery due, only Memory changes. Log 13. -/
def State.withFetchWord (s : State) (nbits w : Nat) : State :=
  { s with
    mem := writeBytes s.mem s.rf.pc (tableBytes nbits w)
    pend := s.pend && !s.rf.ie
    dec := decInit }

end Sys2Proof.Machine
end

