-- ==== Sys2Proof/Machine/Environment.lean ====
section
/-! DEFINITION. What the outside world does to the machine (10_state.md R20, 70_reset_and_hazards.md R403, R405): a run
is a list of the host's actions with the interrupt source's raises and the devices' own moves among them
(60_exceptions.md R311, 20_memory.md R60; log 21), for every decoder and every devices. -/

namespace Sys2Proof.Machine

-- The types of a decoder's state, instructions and arguments, of `Ext`, and of what the devices hold.
variable {δ ι α ε σ : Type}

/-- One action on the machine from outside. -/
inductive HostAction (σ : Type) where
  | load (image : List (Word × Byte))
  | bind (ports : List Nat) (d : DeviceId)
  | attach (d : DeviceId)
  | raise
  | devices (dev : σ)
  | step
deriving DecidableEq, Repr

/-- The effect of one action on an engine whose step is `run`. -/
def actWith (run : Engine.State δ ι α ε σ → Host.Outcome (Engine.State δ ι α ε σ) Fault Refusal) :
    HostAction σ → Engine.State δ ι α ε σ → Host.Outcome (Engine.State δ ι α ε σ) Fault Refusal
  | .load image, s => loadImage image s
  | .bind ports d, s => bindDevice ports d s
  | .attach d, s => attachDevice d s
  | .raise, s => .next (raiseInterrupt s)
  | .devices dev, s => .next (devicesMove dev s)
  | .step, s => run s

/-- A run: the actions in order, stopping at the first that has no next state. -/
def actAllWith (run : Engine.State δ ι α ε σ → Host.Outcome (Engine.State δ ι α ε σ) Fault Refusal) :
    List (HostAction σ) → Engine.State δ ι α ε σ → Host.Outcome (Engine.State δ ι α ε σ) Fault Refusal
  | [], s => .next s
  | x :: xs, s =>
    match actWith run x s with
    | .next t => actAllWith run xs t
    | .fault r => .fault r
    | .refused r => .refused r

/-- What a step gives back to its caller for tracing: the `(ins, args)` of its `StepReturn`, or nothing after a fatal
fault (42_engine_step.md R155, 60_exceptions.md R324). -/
def traceResult (t : Engine.State δ ι α ε σ) : Option (ι × α) :=
  match t.histRev with
  | .stepReturn i args :: _ => some (i, args)
  | _ => none

/-- One action on the machine of this package. -/
def act (x : HostAction Oracle) (s : State) : Host.Outcome State Fault Refusal := actWith step x s

/-- A run of the machine of this package. -/
def actAll (xs : List (HostAction Oracle)) (s : State) : Host.Outcome State Fault Refusal := actAllWith step xs s

end Sys2Proof.Machine
end

