-- ==== Sys2Proof/Safety.lean ====
section
/-! DEFINITION. What a good run is, the invariant of the machine, and the words the statements use to say what a fetch
or a commit leaves. -/

namespace Sys2Proof.Machine
open Sys2Proof.Engine (Devices)

-- The types of a decoder's state, instructions and arguments, of `Ext`, and of what the devices hold.
variable {δ ι α ε σ : Type}

/-! ### Runs -/

/-- An instruction boundary of a run that has not faulted (10_state.md R31, R37): no fatal fault, and the decoder at
`dec_init`. -/
def AtBoundary (s : State) : Prop := s.fault = none ∧ s.dec = decInit

/-- A run from `s` that ends well in `t` (70_reset_and_hazards.md R405, host end). A faulted machine has no further step
and is never a good end (R141), so no step of such a run raised a fatal fault. -/
def GoodRun (xs : List (HostAction Oracle)) (s t : State) : Prop := actAll xs s = .next t ∧ t.fault = none

/-! ### The invariant -/

/-- TD's `Accum(s)` holds at most 2 bytes (43_instruction_set.md R200). -/
def decBounded : DecState → Prop
  | .accum bytes => bytes.length ≤ 2
  | .junk => True

/-- The newest event says how the last step ended: with `StepReturn`, whose arguments are the instruction's own, or,
where `FAULT` is set, with that fault (10_state.md R33, R36; 42_engine_step.md R155, R157). -/
def EndsWithItsStep (s : State) : Prop :=
  match s.fault with
  | some f => s.histRev.head? = some (.fault f)
  | none => s.histRev = [] ∨ ∃ i, s.histRev.head? = some (.stepReturn i i.args)

/-- What holds at every boundary of every run, and after a fatal fault. `faults`: a fatal fault, and nothing else, sets
`FAULT` and appends a `Fault` event (60_exceptions.md R300). -/
structure Inv (s : State) : Prop where
  memory : Memory.wf s.mem
  ports : IoMap.wf s.iomap
  boundary : s.fault = none → s.dec = decInit
  decoder : decBounded s.dec
  lastEvent : EndsWithItsStep s
  faults : s.fault = none ↔ ∀ f, Event.fault f ∉ s.histRev

/-! ### What a fetch leaves -/

/-- The events of `n` feeds of a normal fetch from `pc`, in order (42_engine_step.md R149). -/
def fedEvents (m : Memory) (pc : Word) : Nat → List (Event ι α)
  | 0 => []
  | n + 1 => .fed (readByte m pc) (.normal pc) :: fedEvents m (pc + 1) n

/-- The state after `n` feeds of a normal fetch that leave the decoder in `d`: `PC` has advanced by `n` modulo 0x10000,
`n` events have been appended, and nothing else has changed. -/
def afterFetch (n : Nat) (d : δ) (s : Engine.State δ ι α ε σ) : Engine.State δ ι α ε σ :=
  { s with
    dec := d
    rf := { s.rf with pc := s.rf.pc + BitVec.ofNat 16 n }
    histRev := (fedEvents s.mem s.rf.pc n).reverse ++ s.histRev }

/-- The decoder's state after a list of bytes, and the result of each feed. -/
def feedAll (f : Feed δ ι α) : δ → List Byte → δ × List (DecodeResult ι α)
  | d, [] => (d, [])
  | d, b :: bs => ((feedAll f (f d b).1 bs).1, (f d b).2 :: (feedAll f (f d b).1 bs).2)

/-- The state after the three injected feeds of a delivery in mode 1 (42_engine_step.md R145, R146). -/
def afterInjection (f : Feed δ ι α) (s : Engine.State δ ι α ε σ) : Engine.State δ ι α ε σ :=
  { s with
    rf := { s.rf with ie := false }
    pend := false
    dec := (feedAll f s.dec [0xCD, 0x38, 0x00]).1
    histRev := .fed 0x00 .injected :: .fed 0x38 .injected :: .fed 0xCD .injected ::
      .interruptDelivered s.rf.im :: s.histRev }

/-! ### What a commit leaves -/

/-- The event a write-list entry appends: none for a memory write (41_address_dispatch.md R125–R127). -/
def writeEvent (io : IoMap) (w : Address × Byte) : Option (Event ι α) :=
  match classify w.1 with
  | .mem _ => none
  | .port p =>
    match deviceAt io p with
    | some d => some (.portWrite p d w.2)
    | none => some (.unboundPortWrite p w.2)

/-- The byte the write list leaves in cell `a` that held `old`: the last entry's that names it (20_memory.md R68). -/
def lastWritten (a : Word) (old : Byte) (ws : List (Address × Byte)) : Byte :=
  ws.foldl (fun b w => if w.1 = a.toNat then w.2 else b) old

/-- What the devices hold after the write list: each entry of a bound port is one call of its device's `write`, in list
order (20_memory.md R59, R69). -/
def devicesWritten (V : Devices σ) (io : IoMap) (dev : σ) (ws : List (Address × Byte)) : σ :=
  ws.foldl (fun held w =>
    match classify w.1 with
    | .mem _ => held
    | .port p =>
      match deviceAt io p with
      | some d => V.write held d p w.2
      | none => held) dev

/-- An event that records a write to a port, bound or not. -/
def Event.isPortWrite : Event ι α → Bool
  | .portWrite _ _ _ => true
  | .unboundPortWrite _ _ => true
  | _ => false

/-- An event that records the end of an executed instruction. -/
def Event.isStepReturn : Event ι α → Bool
  | .stepReturn _ _ => true
  | _ => false

end Sys2Proof.Machine
end

