-- ==== Sys2Proof/Certificates/Slice0/Obligations.lean ====
section
/-! DEFINITION. The statements about the machine, for the provers. A statement about every `State` is a statement about
every value of the launch parameters (`params`, `iomap`, `RESET_EXT`) and of the oracle (`dev`). A statement over the types
`δ ι α ε σ` is about every `Decoder`, every `Ext` and every `Devices` (00_scope.md R10, R11, R13). Where a title says "TD",
the rule is the spec's own choice of a test decoder (92_eei_decisions.md D17). -/

open Sys2Proof Sys2Proof.Machine
open Sys2Proof.Engine (Decoder Devices)

/-! ### Encoding -/

/-- Six words of 43_instruction_set.md R201, of every format, and HALT, which TD leaves out (R218): no instruction, under
the model's name `unlisted` for the rejection (log 20). -/
def Obligations.KnownWordsDecode : Prop :=
  decode [0x00] = .ok (.nop, []) ∧
  decode [0xCD, 0x38, 0x00] = .ok (.call 0x0038, []) ∧
  decode [0x3E, 0x41] = .ok (.ldAImm 0x41, []) ∧
  decode [0x31, 0x34, 0x12] = .ok (.ldSpImm 0x1234, []) ∧
  decode [0xDB, 0x02, 0xFF] = .ok (.inAPort 0x02, [0xFF]) ∧
  decode [0xED, 0x5E] = .ok (.im2, []) ∧
  decode [0x76, 0x00] = .error .unlisted

/-- Every instruction is read back from its encoding, with every operand, and the bytes after it are left (R201, R217). -/
def Obligations.DecodeOfEncode : Prop :=
  ∀ (i : Instr) (rest : List Byte), decode (encode i ++ rest) = .ok (i, rest)

/-- A list of bytes that decodes begins with the encoding of the instruction it decodes to (R201, R217): no two
encodings of one instruction, no overlap. -/
def Obligations.DecodeDeterminesBytes : Prop :=
  ∀ (bytes : List Byte) (i : Instr) (rest : List Byte), decode bytes = .ok (i, rest) → bytes = encode i ++ rest

/-- The length of an instruction from its byte 0 alone (30_encoding.md R90). -/
def Obligations.LengthFromByteZero : Prop :=
  ∀ (op : Byte) (tail rest : List Byte) (i : Instr), decode (op :: tail) = .ok (i, rest) →
    tail.length + 1 = rest.length +
      (if op ∈ ([0x00, 0xC9, 0xF3, 0xFB] : List Byte) then 1
       else if op ∈ ([0xED, 0x3E, 0xD3, 0xDB] : List Byte) then 2
       else 3)

/-- Byte order of a 16-bit immediate: the first byte is bits 7:0, the second bits 15:8, unsigned, and taking the word
apart gives the bytes back (30_encoding.md R84, R89). -/
def Obligations.ImmediateLowByteFirst : Prop :=
  ∀ lo hi : Byte, (leWord lo hi).toNat = lo.toNat + 256 * hi.toNat ∧
    loByte (leWord lo hi) = lo ∧ hiByte (leWord lo hi) = hi

/-- 40_decoder_contract.md R102: TD's `feed` answers `dec_init` with every `Complete`; and for EVERY decoder that does,
a normal fetch that completes, and every step that does not fault, leaves the decoder at `dec_init` (10_state.md R31). Every
`Decoder` does, for R102 is its field `contract`. -/
def Obligations.FeedResetsOnComplete : Prop :=
  (∀ (d : DecState) (b : Byte) (i : Instr) (a : List Byte), (feed d b).2 = .complete i a → (feed d b).1 = decInit) ∧
  testDecoder.Contract ∧
  (∀ (δ ι α ε σ : Type) (init : δ) (f : Feed δ ι α) (s t : Engine.State δ ι α ε σ) (i : ι) (a : α),
    FeedContract init f → fetch f s = .ok (i, a, t) → t.dec = init) ∧
  (∀ (δ ι α ε σ : Type) (D : Decoder δ ι α ε) (V : Devices σ) (s t : Engine.State δ ι α ε σ),
    engineStep D V s = .next t → t.fault = none → t.dec = D.decInit)

/-- TD's junk state (30_encoding.md R91, 43_instruction_set.md R218): it yields `Incomplete` for ever, and every byte 0
R201 does not list, and every byte after 0xED it does not list, leads there. -/
def Obligations.UnlistedBytesGoToJunk : Prop :=
  (∀ b : Byte, feed .junk b = (.junk, .incomplete)) ∧
  (∀ op : Byte, op ∉ ([0x00, 0xCD, 0x3E, 0x31, 0x32, 0x3A, 0xC3, 0xC9, 0xD3, 0xDB, 0xF3, 0xFB, 0xED] : List Byte) →
    feed decInit op = (.junk, .incomplete)) ∧
  (∀ x : Byte, x ∉ ([0x46, 0x56, 0x5E] : List Byte) →
    (feed decInit 0xED).2 = .incomplete ∧ feed (feed decInit 0xED).1 x = (.junk, .incomplete))

/-! ### Memory, ports and the I/O Map -/

/-- 41_address_dispatch.md R120. -/
def Obligations.AddressClassification : Prop :=
  ∀ a : Nat,
    match classify a with
    | .mem m => a < 0x10000 ∧ m.toNat = a
    | .port p => 0x10000 ≤ a ∧ p.toNat = a &&& 0xFF

/-- 41_address_dispatch.md R122: a memory read returns the cell and changes no state. -/
def Obligations.MemoryReadChangesNothing : Prop :=
  ∀ (δ ι α ε σ : Type) (V : Devices σ) (m : Word) (s : Engine.State δ ι α ε σ),
    resolveRead V m.toNat s = .ok (readByte s.mem m, s)

/-- 20_memory.md R57, 41_address_dispatch.md R125: a memory write sets its cell and has no other effect; a later read
of it returns the byte, whatever writes to other addresses come in between. -/
def Obligations.MemoryWriteThenRead : Prop :=
  ∀ (δ ι α ε σ : Type) (V : Devices σ) (m : Word) (v : Byte) (s : Engine.State δ ι α ε σ),
    readByte (resolveWrite V m.toNat v s).mem m = v ∧
    (∀ b : Word, b ≠ m → readByte (resolveWrite V m.toNat v s).mem b = readByte s.mem b) ∧
    resolveWrite V m.toNat v s = { s with mem := (resolveWrite V m.toNat v s).mem } ∧
    ∀ ws : List (Address × Byte), (∀ w ∈ ws, w.1 ≠ m.toNat) →
      resolveRead V m.toNat (commit V ws (resolveWrite V m.toNat v s)) =
        .ok (v, commit V ws (resolveWrite V m.toNat v s))

/-- Every write keeps the canonical form of Memory, so that equal memories are equal data (the model's own form). -/
def Obligations.WritesKeepCanonicalMemory : Prop :=
  (∀ (m : Memory) (a : Word) (v : Byte), Memory.wf m → Memory.wf (writeByte m a v)) ∧
  (∀ m n : Memory, Memory.wf m → Memory.wf n → (∀ a : Word, readByte m a = readByte n a) → m = n)

/-- 41_address_dispatch.md R123, for EVERY devices: one call of the bound device's `read` with the port number, one event,
the device's byte, and nothing else. The oracle, the devices of this package, answers the environment's oldest answer for
that device if there is one, else the free byte (R128; the oracle is the model's, log 7). -/
def Obligations.BoundPortReadCallsDeviceOnce : Prop :=
  (∀ (δ ι α ε σ : Type) (V : Devices σ) (a : Nat) (d : DeviceId) (s : Engine.State δ ι α ε σ), 0x10000 ≤ a →
    deviceAt s.iomap (BitVec.ofNat 8 a) = some d →
    resolveRead V a s =
      .ok ((V.read s.dev d (BitVec.ofNat 8 a)).1,
        { s with
          dev := (V.read s.dev d (BitVec.ofNat 8 a)).2
          histRev := .portRead (BitVec.ofNat 8 a) d (V.read s.dev d (BitVec.ofNat 8 a)).1 :: s.histRev })) ∧
  (∀ (o : Oracle) (d : DeviceId) (p : Byte),
    (∀ w rest, takeAnswer d o.answers = some (w, rest) → oracle.read o d p = (w, { o with answers := rest })) ∧
    (takeAnswer d o.answers = none →
      oracle.read o d p = (Config.deviceByte d p o.draws, { o with draws := o.draws + 1 })))

/-- 41_address_dispatch.md R124, 60_exceptions.md R303, R300: the fatal fault of a read of an unbound port. -/
def Obligations.UnboundPortReadIsFatal : Prop :=
  ∀ (δ ι α ε σ : Type) (V : Devices σ) (a : Nat) (s : Engine.State δ ι α ε σ), 0x10000 ≤ a →
    deviceAt s.iomap (BitVec.ofNat 8 a) = none →
    resolveRead V a s =
      .error { s with
        fault := some (.unboundPortRead (BitVec.ofNat 8 a) a)
        histRev := .fault (.unboundPortRead (BitVec.ofNat 8 a) a) :: s.histRev }

/-- 41_address_dispatch.md R126: one call of the bound device's `write`, with the port number and the byte. -/
def Obligations.BoundPortWriteCallsDeviceOnce : Prop :=
  ∀ (δ ι α ε σ : Type) (V : Devices σ) (a : Nat) (v : Byte) (d : DeviceId) (s : Engine.State δ ι α ε σ), 0x10000 ≤ a →
    deviceAt s.iomap (BitVec.ofNat 8 a) = some d →
    resolveWrite V a v s =
      { s with
        dev := V.write s.dev d (BitVec.ofNat 8 a) v
        histRev := .portWrite (BitVec.ofNat 8 a) d v :: s.histRev }

/-- 41_address_dispatch.md R127: the recoverable report, no device called, Memory not changed, and the rest of the
write list still committed. -/
def Obligations.UnboundPortWriteIsReported : Prop :=
  ∀ (δ ι α ε σ : Type) (V : Devices σ) (a : Nat) (v : Byte) (ws : List (Address × Byte))
    (s : Engine.State δ ι α ε σ), 0x10000 ≤ a → deviceAt s.iomap (BitVec.ofNat 8 a) = none →
    resolveWrite V a v s = { s with histRev := .unboundPortWrite (BitVec.ofNat 8 a) v :: s.histRev } ∧
    commit V ((a, v) :: ws) s =
      commit V ws { s with histRev := .unboundPortWrite (BitVec.ofNat 8 a) v :: s.histRev }

/-- 41_address_dispatch.md R130: before the first step `bindDevice` gives each listed port to the device, over any earlier
binding; every other port keeps its binding, and nothing else changes. -/
def Obligations.BindLastWins : Prop :=
  ∀ (δ ι α ε σ : Type) (ports : List Nat) (d : DeviceId) (s : Engine.State δ ι α ε σ), s.histRev = [] →
    (∀ p ∈ ports, p < 256) →
    ∃ t, bindDevice ports d s = .next t ∧
      (∀ p : Byte, deviceAt t.iomap p = if p.toNat ∈ ports then some d else deviceAt s.iomap p) ∧
      t = { s with iomap := t.iomap }

/-- 41_address_dispatch.md R131, R132, 60_exceptions.md R308: `bindDevice` is refused once there is a history, as there is
after every step and for ever after, whatever raises and other actions follow; and on a port above 255. So is a load (the
model's, log 11); attaching a device is binding the ports it declares (the model's, log 6). -/
def Obligations.SetupIsRefusedAfterAStep : Prop :=
  (∀ (δ ι α ε σ : Type) (ports : List Nat) (d : DeviceId) (image : List (Word × Byte))
    (s : Engine.State δ ι α ε σ), s.histRev ≠ [] →
    bindDevice ports d s = .refused .bindAfterStart ∧ attachDevice d s = .refused .bindAfterStart ∧
    loadImage image s = .refused .loadAfterStart) ∧
  (∀ s t : State, step s = .next t → t.histRev ≠ []) ∧
  (∀ (x : HostAction Oracle) (s t : State), act x s = .next t → s.histRev ≠ [] → t.histRev ≠ []) ∧
  (∀ (δ ι α ε σ : Type) (ports : List Nat) (d : DeviceId) (s : Engine.State δ ι α ε σ), s.histRev = [] →
    (∃ p ∈ ports, 256 ≤ p) → bindDevice ports d s = .refused .bindPortOutOfRange) ∧
  (∀ (δ ι α ε σ : Type) (d : DeviceId) (s : Engine.State δ ι α ε σ),
    attachDevice d s = bindDevice (claimedPorts s.params d) d s)

/-! ### Operand gather and commit, for every decoder -/

/-- 42_engine_step.md R151: the read list of the register file as it stands is read in order, one `resolve_read` an
entry, and the bytes go to `execute` in that order, whose registers and write list make the rest of the step (R152 to
R155); a fatal fault ends the step where it is raised, later entries are not read and `execute` is not called. -/
def Obligations.OperandGatherInOrder : Prop :=
  ∀ (δ ι α ε σ : Type) (V : Devices σ),
    (∀ s : Engine.State δ ι α ε σ, gather V [] s = .ok ([], s)) ∧
    (∀ (a : Address) (as : List Address) (s t : Engine.State δ ι α ε σ),
      resolveRead V a s = .error t → gather V (a :: as) s = .error t) ∧
    (∀ (a : Address) (s t : Engine.State δ ι α ε σ) (v : Byte),
      resolveRead V a s = .ok (v, t) → gather V [a] s = .ok ([v], t)) ∧
    (∀ (as bs : List Address) (s t : Engine.State δ ι α ε σ) (data : List Byte), gather V as s = .ok (data, t) →
      data.length = as.length ∧ t.rf = s.rf ∧ t.mem = s.mem ∧
      (∀ data' u, gather V bs t = .ok (data', u) → gather V (as ++ bs) s = .ok (data ++ data', u)) ∧
      (∀ u, gather V bs t = .error u → gather V (as ++ bs) s = .error u)) ∧
    (∀ (as bs : List Address) (s t : Engine.State δ ι α ε σ),
      gather V as s = .error t → gather V (as ++ bs) s = .error t) ∧
    (∀ (D : Decoder δ ι α ε) (i : ι) (args : α) (s t : Engine.State δ ι α ε σ),
      (gather V (D.readAddresses i s.rf args) s = .error t → runDecoded D V i args s = .next t) ∧
      (∀ data, gather V (D.readAddresses i s.rf args) s = .ok (data, t) →
        runDecoded D V i args s =
          .next (emit (.stepReturn i args)
            (commit V (D.execute i s.rf data args).2 { t with rf := (D.execute i s.rf data args).1 }))))

/-- 42_engine_step.md R154: the write list is committed in order. Each cell ends with the byte of the last entry that
names it (20_memory.md R68); each entry of a bound port is one call of its device, in list order; each port entry appends
exactly its event, in list order; nothing else changes, so no register and no fatal fault. -/
def Obligations.CommitInOrder : Prop :=
  ∀ (δ ι α ε σ : Type) (V : Devices σ) (ws : List (Address × Byte)) (s : Engine.State δ ι α ε σ),
    (∀ a : Word, readByte (commit V ws s).mem a = lastWritten a (readByte s.mem a) ws) ∧
    (commit V ws s).hist = s.hist ++ ws.filterMap (writeEvent s.iomap) ∧
    commit V ws s =
      { s with
        mem := (commit V ws s).mem
        dev := devicesWritten V s.iomap s.dev ws
        histRev := (commit V ws s).histRev }

/-! ### The step -/

/-- 42_engine_step.md R149, for EVERY decoder: with no delivery, the step feeds the bytes from `PC` on, one at a time,
until the first feed that completes; that is its instruction, `PC` has advanced by the bytes fed, each feed has its
event. -/
def Obligations.FetchFeedsUntilComplete : Prop :=
  ∀ (δ ι α ε σ : Type) (f : Feed δ ι α)
    (run : ι → α → Engine.State δ ι α ε σ → Host.Outcome (Engine.State δ ι α ε σ) Fault Refusal)
    (s : Engine.State δ ι α ε σ) (n : Nat) (i : ι) (a : α),
    s.fault = none → ¬(s.pend = true ∧ s.rf.ie = true) → n < s.params.decodeBudget.val →
    (feedAll f s.dec (readBytes s.mem s.rf.pc (n + 1))).2 = List.replicate n .incomplete ++ [.complete i a] →
    stepWith f run s =
      run i a (afterFetch (n + 1) (feedAll f s.dec (readBytes s.mem s.rf.pc (n + 1))).1 s)

/-- 42_engine_step.md R150, for EVERY decoder: a normal fetch whose `DECODE_BUDGET` bytes all yield `Incomplete` raises
`DecodeFault`; `PC` has advanced by the budget, the decoder holds its partial state, nothing is executed. A budget as
00_scope.md R7 asks for it cuts off no instruction: at a boundary with no delivery, bytes that are one instruction of the
decoder are fetched whole and run. For TD that is a budget of at least 3 (R7). -/
def Obligations.DecodeBudgetExceededFaults : Prop :=
  (∀ (δ ι α ε σ : Type) (f : Feed δ ι α)
    (run : ι → α → Engine.State δ ι α ε σ → Host.Outcome (Engine.State δ ι α ε σ) Fault Refusal)
    (s : Engine.State δ ι α ε σ),
    s.fault = none → ¬(s.pend = true ∧ s.rf.ie = true) →
    (feedAll f s.dec (readBytes s.mem s.rf.pc s.params.decodeBudget.val)).2 =
      List.replicate s.params.decodeBudget.val .incomplete →
    stepWith f run s =
      .next { s with
        dec := (feedAll f s.dec (readBytes s.mem s.rf.pc s.params.decodeBudget.val)).1
        rf := { s.rf with pc := s.rf.pc + BitVec.ofNat 16 s.params.decodeBudget.val }
        fault := some (.decodeFault s.rf.pc s.params.decodeBudget.val)
        histRev := .fault (.decodeFault s.rf.pc s.params.decodeBudget.val) ::
          ((fedEvents s.mem s.rf.pc s.params.decodeBudget.val).reverse ++ s.histRev) }) ∧
  (∀ (δ ι α ε σ : Type) (D : Decoder δ ι α ε) (V : Devices σ) (s : Engine.State δ ι α ε σ) (n : Nat),
    s.fault = none → s.dec = D.decInit → ¬(s.pend = true ∧ s.rf.ie = true) → D.BudgetCovers s.params →
    completesAtEnd D.feed D.decInit (readBytes s.mem s.rf.pc n) = true →
    n ≤ s.params.decodeBudget.val ∧
      ∃ i a, engineStep D V s = runDecoded D V i a (afterFetch n D.decInit s)) ∧
  (∀ p : Params, testDecoder.BudgetCovers p ↔ 3 ≤ p.decodeBudget.val)

/-- A STEP RUNS THE DECODED INSTRUCTION (42_engine_step.md R140, R149, R159): at a boundary with no delivery, when the
bytes at `PC` decode to `i` and the budget covers it, the step is `exec i` on the state with `PC` moved past the
instruction's bytes and its feeds recorded. In every state, the step is the engine's, with TD for its `Decoder` and the
oracle for its `DEVICES` (00_scope.md R14). -/
def Obligations.StepRunsDecodedInstruction : Prop :=
  (∀ (s : State) (i : Instr) (rest : List Byte), AtBoundary s → ¬(s.pend = true ∧ s.rf.ie = true) →
    (encode i).length ≤ s.params.decodeBudget.val →
    decode (readBytes s.mem s.rf.pc longestInstr) = .ok (i, rest) →
    step s = exec i (afterFetch (encode i).length decInit s)) ∧
  (∀ s : State, step s = engineStep testDecoder oracle s)

/-- 43_instruction_set.md R218, 42_engine_step.md R150: at a boundary with no delivery, bytes that do not decode within
the budget end in `DecodeFault`; with an unlisted sequence TD stands in its junk state. Memory and every register but
`PC` are as before. -/
def Obligations.UndecodableBytesFault : Prop :=
  ∀ (s : State) (e : DecodeReject), AtBoundary s → ¬(s.pend = true ∧ s.rf.ie = true) →
    decode (readBytes s.mem s.rf.pc s.params.decodeBudget.val) = .error e →
    ∃ d : DecState, (e = .unlisted → d = .junk) ∧
      step s = .next { s with
        dec := d
        rf := { s.rf with pc := s.rf.pc + BitVec.ofNat 16 s.params.decodeBudget.val }
        fault := some (.decodeFault s.rf.pc s.params.decodeBudget.val)
        histRev := .fault (.decodeFault s.rf.pc s.params.decodeBudget.val) ::
          ((fedEvents s.mem s.rf.pc s.params.decodeBudget.val).reverse ++ s.histRev) }

/-- 42_engine_step.md R141, 10_state.md R36: a faulted machine has no further step. -/
def Obligations.FaultedMachineHasNoStep : Prop :=
  ∀ (s : State) (f : FatalFault), s.fault = some f → step s = .fault (.machineFaulted f)

/-- 60_exceptions.md R325: every step of an unfaulted machine has a next state, with TD and with every decoder and every
devices; no instruction is refused and none waits. -/
def Obligations.UnfaultedMachineAlwaysSteps : Prop :=
  (∀ s : State, s.fault = none → ∃ t, step s = .next t) ∧
  (∀ (δ ι α ε σ : Type) (D : Decoder δ ι α ε) (V : Devices σ) (s : Engine.State δ ι α ε σ), s.fault = none →
    ∃ t, engineStep D V s = .next t)

/-- 42_engine_step.md R156: a step appends to the history; one that does not fault executes exactly one instruction, its
`StepReturn` being the newest event; one that faults executes none. -/
def Obligations.OneInstructionPerStep : Prop :=
  ∀ s t : State, s.fault = none → step s = .next t →
    ∃ es, t.histRev = es ++ s.histRev ∧ es ≠ [] ∧
      (t.fault = none → es.countP Event.isStepReturn = 1 ∧ ∃ i, es.head? = some (.stepReturn i i.args)) ∧
      (∀ f, t.fault = some f → es.countP Event.isStepReturn = 0 ∧ es.head? = some (.fault f))

/-- 42_engine_step.md R157: a faulting step writes no Memory, no port and no register but `PC` and the flags a delivery
had cleared before. -/
def Obligations.FaultingStepWritesNothing : Prop :=
  ∀ s t : State, s.fault = none → step s = .next t → t.fault ≠ none →
    t.mem = s.mem ∧ t.rf.ext = s.rf.ext ∧ t.rf.im = s.rf.im ∧
    t.rf.ie = (s.rf.ie && !s.pend) ∧ t.pend = (s.pend && !s.rf.ie) ∧
    ∃ es, t.histRev = es ++ s.histRev ∧ ∀ e ∈ es, e.isPortWrite = false ∧ e.isStepReturn = false

/-! ### Interrupts -/

/-- 42_engine_step.md R143: with `PEND = 1` and `IE = 0` the step is the one with `PEND = 0`, and `PEND` is still 1
after it; if the instruction leaves `IE = 1`, the next step delivers. -/
def Obligations.DisabledInterruptStaysPending : Prop :=
  ∀ s t : State, s.fault = none → s.rf.ie = false → step { s with pend := false } = .next t →
    step { s with pend := true } = .next { t with pend := true } ∧
    (t.fault = none → t.rf.ie = true →
      ∃ u es, step { t with pend := true } = .next u ∧ u.pend = false ∧
        u.hist = t.hist ++ .interruptDelivered t.rf.im :: es)

/-- 42_engine_step.md R145: a delivery clears `PEND` and `IE` and records itself before anything else of the step, in
every mode; `IE` is still 0 after the step in mode 1 and after the fault of policy `Reject`, and in mode 0 or 2 with
policy `NoOp` the rest of the step is the step of the machine with both cleared. -/
def Obligations.DeliveryClearsEnableAndPending : Prop :=
  ∀ s t : State, s.fault = none → s.pend = true → s.rf.ie = true → step s = .next t →
    t.pend = false ∧ (∃ es, t.hist = s.hist ++ .interruptDelivered s.rf.im :: es) ∧
    (s.rf.im = .mode1 ∨ s.params.imPolicy = .reject → t.rf.ie = false) ∧
    (s.rf.im ≠ .mode1 → s.params.imPolicy = .noOp →
      step { s with
        rf := { s.rf with ie := false }
        pend := false
        histRev := .interruptDelivered s.rf.im :: s.histRev } = .next t)

/-- 42_engine_step.md R146, R158, 60_exceptions.md R315: with TD, a delivery in mode 1 is the injected CALL 0x0038: the
unchanged `PC` is pushed, high byte at SP − 1 and low byte at SP − 2, and control goes to 0x0038. -/
def Obligations.ModeOneDeliveryCalls0038 : Prop :=
  ∀ s : State, AtBoundary s → s.pend = true → s.rf.ie = true → s.rf.im = .mode1 →
    ∃ t, step s = .next t ∧
      readByte t.mem (s.rf.ext.sp - 1) = hiByte s.rf.pc ∧
      readByte t.mem (s.rf.ext.sp - 2) = loByte s.rf.pc ∧
      (∀ b : Word, b ≠ s.rf.ext.sp - 1 → b ≠ s.rf.ext.sp - 2 → readByte t.mem b = readByte s.mem b) ∧
      t.hist = s.hist ++ [.interruptDelivered .mode1, .fed 0xCD .injected, .fed 0x38 .injected, .fed 0x00 .injected,
        .stepReturn (.call 0x0038) [0x38, 0x00]] ∧
      t = { s with
            rf := { s.rf with pc := 0x0038, ie := false, ext := { s.rf.ext with sp := s.rf.ext.sp - 2 } }
            pend := false
            mem := t.mem
            histRev := t.histRev }

/-- 42_engine_step.md R147, for EVERY decoder: the third injected feed's result is the step's instruction, whatever the
first two yielded; if it is `Incomplete` the step raises `InjectionIncomplete`. `PC` is not advanced and Memory is not
read (R146). -/
def Obligations.InjectionUsesThirdResult : Prop :=
  ∀ (δ ι α ε σ : Type) (f : Feed δ ι α)
    (run : ι → α → Engine.State δ ι α ε σ → Host.Outcome (Engine.State δ ι α ε σ) Fault Refusal)
    (s : Engine.State δ ι α ε σ),
    s.fault = none → s.pend = true → s.rf.ie = true → s.rf.im = .mode1 →
    (∀ i a, (feedAll f s.dec [0xCD, 0x38, 0x00]).2[2]? = some (.complete i a) →
      stepWith f run s = run i a (afterInjection f s)) ∧
    ((feedAll f s.dec [0xCD, 0x38, 0x00]).2[2]? = some .incomplete →
      stepWith f run s =
        .next { afterInjection f s with
          fault := some .injectionIncomplete
          histRev := .fault .injectionIncomplete :: (afterInjection f s).histRev })

/-- 42_engine_step.md R148: delivery in mode 0 or 2. `Reject`: the fatal fault, with `IE` and `PEND` cleared and nothing
fed. `NoOp`: a normal fetch and execute; the interrupt is consumed. -/
def Obligations.UnsupportedModeDelivery : Prop :=
  ∀ s : State, s.fault = none → s.pend = true → s.rf.ie = true → s.rf.im ≠ .mode1 →
    (s.params.imPolicy = .reject →
      step s = .next { s with
        rf := { s.rf with ie := false }
        pend := false
        fault := some (.unsupportedInterruptMode s.rf.im)
        histRev := .fault (.unsupportedInterruptMode s.rf.im) :: .interruptDelivered s.rf.im :: s.histRev }) ∧
    (s.params.imPolicy = .noOp →
      step s = step { s with
        rf := { s.rf with ie := false }
        pend := false
        histRev := .interruptDelivered s.rf.im :: s.histRev })

/-- 10_state.md R30: the Interrupt Latch. A raise sets it and changes nothing else, and a second raise adds nothing;
only a delivery clears it, so with `IE = 0` a step leaves it; every action from outside but a raise leaves it. -/
def Obligations.InterruptLatch : Prop :=
  (∀ (δ ι α ε σ : Type) (s : Engine.State δ ι α ε σ),
    raiseInterrupt s = { s with pend := true } ∧ raiseInterrupt (raiseInterrupt s) = raiseInterrupt s) ∧
  (∀ s t : State, step s = .next t → t.pend = (s.pend && !s.rf.ie)) ∧
  (∀ (x : HostAction Oracle) (s t : State), x ≠ .step → x ≠ .raise → act x s = .next t → t.pend = s.pend)

/-- 70_reset_and_hazards.md R412: no delay after EI. With `PEND = 1`, `IM = 1` and EI (FB) at `PC`, the next step is the
delivery, before the instruction after EI. -/
def Obligations.NoDelayAfterEi : Prop :=
  ∀ s : State, AtBoundary s → s.pend = true → s.rf.ie = false → s.rf.im = .mode1 → readByte s.mem s.rf.pc = 0xFB →
    ∃ t u, step s = .next t ∧ t.rf = { s.rf with pc := s.rf.pc + 1, ie := true } ∧ t.pend = true ∧
      step t = .next u ∧ u.rf.pc = 0x0038 ∧ u.rf.ie = false ∧ u.pend = false ∧
      u.rf.ext.sp = s.rf.ext.sp - 2 ∧
      readByte u.mem (s.rf.ext.sp - 1) = hiByte (s.rf.pc + 1) ∧
      readByte u.mem (s.rf.ext.sp - 2) = loByte (s.rf.pc + 1)

/-! ### Whole-machine rules -/

/-- 10_state.md R35: the I/O Map is the same after every step; so are the launch parameters, the devices' declared ports
among them. -/
def Obligations.SetupNeverChanges : Prop :=
  ∀ s t : State, step s = .next t → t.iomap = s.iomap ∧ t.params = s.params

/-- Only LD (nn),A and CALL (an injected one too) change Memory, and only the bytes they name (43_instruction_set.md
R203, R206; 20_memory.md R57, R65). -/
def Obligations.MemoryChangesOnlyByStores : Prop :=
  ∀ (s t : State) (a : Word), step s = .next t → readByte t.mem a ≠ readByte s.mem a →
    ∃ i, t.histRev.head? = some (.stepReturn i i.args) ∧
      (i = .ldMemA a ∨ (∃ nn, i = .call nn) ∧ (a = s.rf.ext.sp - 1 ∨ a = s.rf.ext.sp - 2))

/-- Who changes `IM` and `IE` (10_state.md R26, R27; 60_exceptions.md R317, with TD): `IM` only its three instructions,
to their own mode; `IE` to 1 only EI; `IE` to 0 only DI or a delivery. -/
def Obligations.InterruptControlHasFewWriters : Prop :=
  ∀ s t : State, step s = .next t →
    (t.rf.im ≠ s.rf.im →
      ∃ i, t.histRev.head? = some (.stepReturn i []) ∧
        (i = .im0 ∧ t.rf.im = .mode0 ∨ i = .im1 ∧ t.rf.im = .mode1 ∨ i = .im2 ∧ t.rf.im = .mode2)) ∧
    (s.rf.ie = false → t.rf.ie = true → t.histRev.head? = some (.stepReturn .ei [])) ∧
    (s.rf.ie = true → t.rf.ie = false → s.pend = true ∨ t.histRev.head? = some (.stepReturn .di []))

/-- The invariant is kept by every step: Memory and the I/O Map in canonical form, the decoder at `dec_init` at every
unfaulted boundary (10_state.md R31), its bytes bounded (43_instruction_set.md R200), the newest event the end of the
last step (R33), and `FAULT` set exactly when the history holds a `Fault` event (60_exceptions.md R300). -/
def Obligations.StepKeepsInvariant : Prop :=
  ∀ s t : State, Inv s → step s = .next t → Inv t

/-- The invariant holds at creation, for every launch, `State.reset` among them. -/
def Obligations.InvariantAtCreation : Prop :=
  (∀ l : Launch, Inv (State.create l)) ∧ Inv State.reset

/-- The invariant is kept by the host's other actions, by a raise and by the devices' own moves
(70_reset_and_hazards.md R403, 60_exceptions.md R310, 20_memory.md R60). -/
def Obligations.SetupAndRaiseKeepInvariant : Prop :=
  ∀ (x : HostAction Oracle) (s t : State), x ≠ .step → Inv s → act x s = .next t → Inv t ∧ t.fault = s.fault

/-- Along every run from creation, `FAULT` is set exactly when the history holds a `Fault` event (10_state.md R33, R36;
60_exceptions.md R300). -/
def Obligations.FaultStatusMatchesHistory : Prop :=
  ∀ (l : Launch) (xs : List (HostAction Oracle)) (t : State), actAll xs (State.create l) = .next t →
    (t.fault = none ↔ ∀ f, Event.fault f ∉ t.hist)

/-- A good run executes exactly one instruction a step (42_engine_step.md R156, 70_reset_and_hazards.md R405). -/
def Obligations.GoodRunExecutesOneInstructionPerStep : Prop :=
  ∀ (l : Launch) (xs : List (HostAction Oracle)) (t : State), GoodRun xs (State.create l) t →
    t.hist.countP Event.isStepReturn = xs.count .step

/-- A step writes the history and never reads it (42_engine_step.md R155, 10_state.md R33): with another history before
it, the step is the same and appends the same events. (`bindDevice` and `loadImage` do read it, log 11.) -/
def Obligations.StepNeverReadsHistory : Prop :=
  ∀ (s : State) (h : List (Event Instr (List Byte))), s.fault = none →
    ∃ (t : State) (es : List (Event Instr (List Byte))), step s = .next { t with histRev := es ++ s.histRev } ∧
      step { s with histRev := h } = .next { t with histRev := es ++ h }

/-- Devices have no access to Memory or the register file (10_state.md R20, R34): what the devices hold, so what they will
answer, can reach only `A`, the history and the devices themselves in one step. -/
def Obligations.DeviceAnswersReachOnlyA : Prop :=
  ∀ (s t : State) (o : Oracle), step s = .next t →
    ∃ u, step { s with dev := o } = .next u ∧
      u = { t with
            rf := { t.rf with ext := { t.rf.ext with a := u.rf.ext.a } }
            histRev := u.histRev
            dev := u.dev }

/-- What creation leaves (10_state.md R41–R48, 70_reset_and_hazards.md R403), for every decoder and every launch: the
launch's `RESET_IE`, `RESET_IM` and `RESET_EXT`, `PC` 0, `DEC` at `dec_init`, every cell 0x00, no port bound. A launch with
a decoder that keeps R102 and a `DECODE_BUDGET` that covers its longest instruction (00_scope.md R7) gives that state and
the decoder; one with any other decoder is refused (60_exceptions.md R308; the refusal's name is the model's, log 15), and
one with a smaller budget is (the model's reading of R7's "must", log 2). The reset
state is the creation with TD and the defaults 0, mode 0 and policy `Reject`; the zeroes of `A` and `SP`, the budget 4, no
device and the empty oracle at reset are the model's choices (logs 4, 2, 6 and 7). -/
def Obligations.CreationValues : Prop :=
  (∀ (δ ι α ε σ : Type) (init : δ) (l : Engine.Launch ε σ) (s : Engine.State δ ι α ε σ),
    s = Engine.State.create init l →
    s.rf = { pc := 0x0000, ie := l.resetIe, im := l.resetIm, ext := l.resetExt } ∧
    s.params = l.params ∧ s.pend = false ∧ s.dec = init ∧
    (∀ a : Word, readByte s.mem a = 0x00) ∧ (∀ p : Byte, deviceAt s.iomap p = none) ∧
    s.fault = none ∧ s.hist = [] ∧ s.dev = l.dev) ∧
  (∀ (δ ι α ε σ : Type) (P : Engine.DecoderParts δ ι α ε) [Decidable P.Contract] (l : Engine.Launch ε σ)
    [Decidable (P.BudgetCovers l.params)],
    (P.Contract → P.BudgetCovers l.params →
      ∃ D, launch P l = .ok (D, Engine.State.create P.decInit l) ∧ D.toDecoderParts = P) ∧
    (P.Contract → ¬ P.BudgetCovers l.params → launch P l = .error .budgetTooSmall) ∧
    (¬ P.Contract → launch P l = .error .decoderNotReset)) ∧
  State.reset.rf = { pc := 0x0000, ie := false, im := .mode0, ext := { a := 0x00, sp := 0x0000 } } ∧
  State.reset.dec = .accum [] ∧ State.reset.params.imPolicy = .reject ∧
  State.reset.params.decodeBudget.val = 4 ∧ State.reset.params.claims = []

/-- The loader (00_scope.md R12, 10_state.md R47): before the first step each cell gets the last byte the image lists
for it, every other cell keeps its byte, and nothing else changes. -/
def Obligations.LoadWritesTheImage : Prop :=
  ∀ (δ ι α ε σ : Type) (image : List (Word × Byte)) (s : Engine.State δ ι α ε σ), s.histRev = [] →
    ∃ t, loadImage image s = .next t ∧ t = { s with mem := t.mem } ∧
      ∀ a : Word, readByte t.mem a =
        image.foldl (fun b c => if c.1 = a then c.2 else b) (readByte s.mem a)

/-! ### The instructions (TD, 43_instruction_set.md R202–R216): encoding, result, frame, completion -/

/-- NOP (R202): one byte, no effect. -/
def Obligations.NopHasNoEffect : Prop :=
  ∀ (rest : List Byte) (s : State),
    decode (0x00 :: rest) = .ok (.nop, rest) ∧
    exec .nop s = .next { s with histRev := .stepReturn .nop [] :: s.histRev }

/-- CALL nn (R203): pushes `PC`, high byte at SP − 1 and low byte at SP − 2, leaves every other cell, SP drops by 2,
control goes to `nn`; nothing else changes. -/
def Obligations.CallPushesAndJumps : Prop :=
  ∀ (lo hi : Byte) (rest : List Byte) (s : State),
    decode (0xCD :: lo :: hi :: rest) = .ok (.call (leWord lo hi), rest) ∧
    ∃ t, exec (.call (leWord lo hi)) s = .next t ∧
      readByte t.mem (s.rf.ext.sp - 1) = hiByte s.rf.pc ∧
      readByte t.mem (s.rf.ext.sp - 2) = loByte s.rf.pc ∧
      (∀ b : Word, b ≠ s.rf.ext.sp - 1 → b ≠ s.rf.ext.sp - 2 → readByte t.mem b = readByte s.mem b) ∧
      t = { s with
            rf := { s.rf with pc := leWord lo hi, ext := { s.rf.ext with sp := s.rf.ext.sp - 2 } }
            mem := t.mem
            histRev := .stepReturn (.call (leWord lo hi)) [lo, hi] :: s.histRev }

/-- LD A,n (R204). -/
def Obligations.LdAImmLoadsImmediate : Prop :=
  ∀ (n : Byte) (rest : List Byte) (s : State),
    decode (0x3E :: n :: rest) = .ok (.ldAImm n, rest) ∧
    exec (.ldAImm n) s =
      .next { s with
        rf := { s.rf with ext := { s.rf.ext with a := n } }
        histRev := .stepReturn (.ldAImm n) [n] :: s.histRev }

/-- LD SP,nn (R205). -/
def Obligations.LdSpImmLoadsImmediate : Prop :=
  ∀ (lo hi : Byte) (rest : List Byte) (s : State),
    decode (0x31 :: lo :: hi :: rest) = .ok (.ldSpImm (leWord lo hi), rest) ∧
    exec (.ldSpImm (leWord lo hi)) s =
      .next { s with
        rf := { s.rf with ext := { s.rf.ext with sp := leWord lo hi } }
        histRev := .stepReturn (.ldSpImm (leWord lo hi)) [lo, hi] :: s.histRev }

/-- LD (nn),A (R206): stores `A` at `nn`; every other cell and every register as before. -/
def Obligations.LdMemAStoresA : Prop :=
  ∀ (lo hi : Byte) (rest : List Byte) (s : State),
    decode (0x32 :: lo :: hi :: rest) = .ok (.ldMemA (leWord lo hi), rest) ∧
    ∃ t, exec (.ldMemA (leWord lo hi)) s = .next t ∧
      readByte t.mem (leWord lo hi) = s.rf.ext.a ∧
      (∀ b : Word, b ≠ leWord lo hi → readByte t.mem b = readByte s.mem b) ∧
      t = { s with
            mem := t.mem
            histRev := .stepReturn (.ldMemA (leWord lo hi)) [lo, hi] :: s.histRev }

/-- LD A,(nn) (R207). -/
def Obligations.LdAMemLoadsByte : Prop :=
  ∀ (lo hi : Byte) (rest : List Byte) (s : State),
    decode (0x3A :: lo :: hi :: rest) = .ok (.ldAMem (leWord lo hi), rest) ∧
    exec (.ldAMem (leWord lo hi)) s =
      .next { s with
        rf := { s.rf with ext := { s.rf.ext with a := readByte s.mem (leWord lo hi) } }
        histRev := .stepReturn (.ldAMem (leWord lo hi)) [lo, hi] :: s.histRev }

/-- JP nn (R208). -/
def Obligations.JpJumps : Prop :=
  ∀ (lo hi : Byte) (rest : List Byte) (s : State),
    decode (0xC3 :: lo :: hi :: rest) = .ok (.jp (leWord lo hi), rest) ∧
    exec (.jp (leWord lo hi)) s =
      .next { s with
        rf := { s.rf with pc := leWord lo hi }
        histRev := .stepReturn (.jp (leWord lo hi)) [lo, hi] :: s.histRev }

/-- RET (R209): the word at SP, low byte first, wrapping; SP rises by 2; `IE` is not changed. -/
def Obligations.RetPopsPc : Prop :=
  ∀ (rest : List Byte) (s : State),
    decode (0xC9 :: rest) = .ok (.ret, rest) ∧
    exec .ret s =
      .next { s with
        rf := { s.rf with
          pc := leWord (readByte s.mem s.rf.ext.sp) (readByte s.mem (s.rf.ext.sp + 1))
          ext := { s.rf.ext with sp := s.rf.ext.sp + 2 } }
        histRev := .stepReturn .ret [] :: s.histRev }

/-- OUT (n),A (R210), port bound and unbound: one device call, or the recoverable report; Memory and every register as
before. The device called is the oracle's: that its `write` leaves the oracle `dev` as it was is the model's choice (log
7), no rule of the spec. -/
def Obligations.OutWritesPort : Prop :=
  ∀ (n : Byte) (rest : List Byte) (s : State),
    decode (0xD3 :: n :: rest) = .ok (.outPortA n, rest) ∧
    (∀ d, deviceAt s.iomap n = some d →
      exec (.outPortA n) s =
        .next { s with histRev := .stepReturn (.outPortA n) [n] :: .portWrite n d s.rf.ext.a :: s.histRev }) ∧
    (deviceAt s.iomap n = none →
      exec (.outPortA n) s =
        .next { s with histRev := .stepReturn (.outPortA n) [n] :: .unboundPortWrite n s.rf.ext.a :: s.histRev })

/-- IN A,(n) from a bound port (R211): one device call; `A` is the byte the device answers; the oracle moves on as the
model says (log 7); nothing else changes. -/
def Obligations.InReadsBoundPort : Prop :=
  ∀ (n : Byte) (rest : List Byte) (d : DeviceId) (s : State), deviceAt s.iomap n = some d →
    decode (0xDB :: n :: rest) = .ok (.inAPort n, rest) ∧
    ∃ (v : Byte) (t : State), exec (.inAPort n) s = .next t ∧
      t = { s with
            rf := { s.rf with ext := { s.rf.ext with a := v } }
            dev := t.dev
            histRev := .stepReturn (.inAPort n) [n] :: .portRead n d v :: s.histRev } ∧
      (∀ w left, takeAnswer d s.dev.answers = some (w, left) → v = w ∧ t.dev = { s.dev with answers := left }) ∧
      (takeAnswer d s.dev.answers = none →
        v = Config.deviceByte d n s.dev.draws ∧ t.dev = { s.dev with draws := s.dev.draws + 1 })

/-- IN A,(n) from an unbound port (R211, 41_address_dispatch.md R124): the fatal fault; `A` is not written and nothing
is returned. -/
def Obligations.InFromUnboundPortIsFatal : Prop :=
  ∀ (n : Byte) (s : State), deviceAt s.iomap n = none →
    exec (.inAPort n) s =
      .next { s with
        fault := some (.unboundPortRead n (0x10000 + n.toNat))
        histRev := .fault (.unboundPortRead n (0x10000 + n.toNat)) :: s.histRev }

/-- DI and EI (R212, R213): `IE` is written and `PEND` is not. -/
def Obligations.DiAndEiWriteEnable : Prop :=
  ∀ (rest : List Byte) (s : State),
    decode (0xF3 :: rest) = .ok (.di, rest) ∧
    exec .di s = .next { s with rf := { s.rf with ie := false }, histRev := .stepReturn .di [] :: s.histRev } ∧
    decode (0xFB :: rest) = .ok (.ei, rest) ∧
    exec .ei s = .next { s with rf := { s.rf with ie := true }, histRev := .stepReturn .ei [] :: s.histRev }

/-- IM 0, IM 1 and IM 2 (R214–R216). -/
def Obligations.ImInstructionsSetMode : Prop :=
  ∀ (rest : List Byte) (s : State),
    decode (0xED :: 0x46 :: rest) = .ok (.im0, rest) ∧
    exec .im0 s = .next { s with rf := { s.rf with im := .mode0 }, histRev := .stepReturn .im0 [] :: s.histRev } ∧
    decode (0xED :: 0x56 :: rest) = .ok (.im1, rest) ∧
    exec .im1 s = .next { s with rf := { s.rf with im := .mode1 }, histRev := .stepReturn .im1 [] :: s.histRev } ∧
    decode (0xED :: 0x5E :: rest) = .ok (.im2, rest) ∧
    exec .im2 s = .next { s with rf := { s.rf with im := .mode2 }, histRev := .stepReturn .im2 [] :: s.histRev }

/-- A RET after a CALL comes back: `PC` and SP are what they were before the CALL's own push, wherever the stack wraps
(R203, R209). -/
def Obligations.RetUndoesCall : Prop :=
  ∀ (nn : Word) (s : State),
    ∃ t u, exec (.call nn) s = .next t ∧ exec .ret t = .next u ∧ u.rf = s.rf ∧ u.mem = t.mem
end

