-- ==== Sys2Proof/Laws/Decode.lean ====
section
/-! SUPPORT. The laws of the byte order helpers and of TD's `feed`. -/

namespace Sys2Proof

theorem leWord_toNat (lo hi : Byte) : (leWord lo hi).toNat = lo.toNat + 256 * hi.toNat := by
  have hl := lo.isLt
  have hh := hi.isLt
  have hor : lo.toNat ||| 2 ^ 8 * hi.toNat = 2 ^ 8 * hi.toNat + lo.toNat := by
    rw [Nat.or_comm, Nat.two_pow_add_eq_or_of_lt hl]
  simp only [leWord, BitVec.toNat_or, BitVec.toNat_setWidth, BitVec.toNat_shiftLeft, Nat.shiftLeft_eq]
  rw [Nat.mod_eq_of_lt (by omega : lo.toNat < 2 ^ 16), Nat.mod_eq_of_lt (by omega : hi.toNat < 2 ^ 16),
    Nat.mod_eq_of_lt (by omega : hi.toNat * 2 ^ 8 < 2 ^ 16), Nat.mul_comm, hor]
  omega

@[simp] theorem loByte_leWord (lo hi : Byte) : loByte (leWord lo hi) = lo := by
  apply BitVec.eq_of_toNat_eq
  have := lo.isLt
  simp only [loByte, BitVec.extractLsb'_toNat, leWord_toNat, Nat.shiftRight_zero]
  omega

@[simp] theorem hiByte_leWord (lo hi : Byte) : hiByte (leWord lo hi) = hi := by
  apply BitVec.eq_of_toNat_eq
  have := lo.isLt
  have := hi.isLt
  simp only [hiByte, BitVec.extractLsb'_toNat, leWord_toNat, Nat.shiftRight_eq_div_pow]
  omega

@[simp] theorem leWord_lo_hi (w : Word) : leWord (loByte w) (hiByte w) = w := by
  apply BitVec.eq_of_toNat_eq
  have := w.isLt
  simp only [leWord_toNat, loByte, hiByte, BitVec.extractLsb'_toNat, Nat.shiftRight_eq_div_pow]
  omega

@[simp] theorem feed_junk (b : Byte) : feed .junk b = (.junk, .incomplete) := rfl

/-- From junk no list of bytes completes (R91). -/
theorem decodeFrom_junk (bs : List Byte) : decodeFrom .junk bs = .error .unlisted := by
  induction bs with
  | nil => rfl
  | cons b bs ih => simpa [decodeFrom] using ih

/-- What a `feed` that completes has been fed: the whole encoding, the last byte now; its `args` are the instruction's
own (R217). -/
theorem feed_complete_cases {d : DecState} {b : Byte} {i : Instr} {a : List Byte} (h : (feed d b).2 = .complete i a) :
    a = i.args ∧ ∃ s, d = .accum s ∧ wholeEncoding (s ++ [b]) = some i ∧ (feed d b).1 = decInit := by
  cases d with
  | junk => simp at h
  | accum s =>
    simp only [feed] at h ⊢
    cases hw : wholeEncoding (s ++ [b]) with
    | some j =>
      rw [hw] at h
      obtain ⟨rfl, rfl⟩ := DecodeResult.complete.inj h
      exact ⟨rfl, s, rfl, hw, rfl⟩
    | none => rw [hw] at h; split_ifs at h

/-- What a `feed` that does not complete leaves: the bytes with this one after them, or junk (R217). -/
theorem feed_incomplete_cases {d : DecState} {b : Byte} (h : (feed d b).2 = .incomplete) :
    (feed d b).1 = .junk ∨
      ∃ s, d = .accum s ∧ (feed d b).1 = .accum (s ++ [b]) ∧ isProperPrefix (s ++ [b]) = true := by
  cases d with
  | junk => exact .inl rfl
  | accum s =>
    simp only [feed] at h ⊢
    cases hw : wholeEncoding (s ++ [b]) with
    | some j => rw [hw] at h; cases h
    | none =>
      simp only
      split_ifs with hp
      · exact .inr ⟨s, rfl, rfl, hp⟩
      · exact .inl rfl

/-- A whole encoding has at most `longestInstr` bytes (R89, R90). -/
theorem wholeEncoding_length {t : List Byte} {i : Instr} (h : wholeEncoding t = some i) : t.length ≤ longestInstr := by
  match t, h with
  | [_], _ => exact Nat.le_add_left 1 2
  | [_, _], _ => exact Nat.le_succ 2
  | [_, _, _], _ => exact Nat.le_refl 3

/-- A proper prefix has at most two bytes (R200). -/
theorem isProperPrefix_length {t : List Byte} (h : isProperPrefix t = true) : t.length ≤ 2 := by
  match t, h with
  | [_], _ => simp
  | [_, _], _ => simp

/-- From junk no list of bytes is an instruction (R91). -/
@[simp] theorem completesAtEnd_junk (bs : List Byte) : completesAtEnd feed .junk bs = false := by
  induction bs with
  | nil => rfl
  | cons b bs ih => exact ih

/-- What TD completes, the bytes it holds counted in, has at most `longestInstr` bytes (R89, R90). -/
theorem completesAtEnd_length {s bs : List Byte} (h : completesAtEnd feed (.accum s) bs = true) :
    s.length + bs.length ≤ longestInstr := by
  induction bs generalizing s with
  | nil => cases h
  | cons b bs ih =>
    rw [completesAtEnd] at h
    cases hr : (feed (.accum s) b).2 with
    | complete i a =>
      obtain ⟨-, s', hs, hw, -⟩ := feed_complete_cases hr
      obtain rfl := DecState.accum.inj hs
      rw [hr] at h
      obtain rfl := List.isEmpty_iff.mp h
      simpa using wholeEncoding_length hw
    | incomplete =>
      rw [hr] at h
      rcases feed_incomplete_cases hr with hj | ⟨s', hs, hd, -⟩
      · simp [hj] at h
      · obtain rfl := DecState.accum.inj hs
        rw [hd] at h
        have := ih h
        simp only [List.length_append, List.length_cons, List.length_nil] at this ⊢
        omega

/-- TD's longest instruction has exactly `longestInstr` bytes (R7, R89). -/
theorem longestAtMost_feed (n : Nat) : LongestAtMost decInit feed n ↔ longestInstr ≤ n :=
  ⟨fun h => h [0xCD, 0x00, 0x00] (by decide), fun hn bs h => by have := completesAtEnd_length h; simp at this; omega⟩

end Sys2Proof
end

