-- ==== Sys2Proof/Laws/State.lean ====
section
/-! SUPPORT. One lemma per field and per named update of the state and of `RegFile`, each true by definition, so that no
proof unfolds a record update. -/

namespace Sys2Proof.Machine

variable {δ ι α ε σ : Type}

/-! `emit` -/

@[simp] theorem emit_rf (e : Event ι α) (s : Engine.State δ ι α ε σ) : (emit e s).rf = s.rf := rfl
@[simp] theorem emit_pend (e : Event ι α) (s : Engine.State δ ι α ε σ) : (emit e s).pend = s.pend := rfl
@[simp] theorem emit_dec (e : Event ι α) (s : Engine.State δ ι α ε σ) : (emit e s).dec = s.dec := rfl
@[simp] theorem emit_mem (e : Event ι α) (s : Engine.State δ ι α ε σ) : (emit e s).mem = s.mem := rfl
@[simp] theorem emit_iomap (e : Event ι α) (s : Engine.State δ ι α ε σ) : (emit e s).iomap = s.iomap := rfl
@[simp] theorem emit_fault (e : Event ι α) (s : Engine.State δ ι α ε σ) : (emit e s).fault = s.fault := rfl
@[simp] theorem emit_histRev (e : Event ι α) (s : Engine.State δ ι α ε σ) : (emit e s).histRev = e :: s.histRev := rfl
@[simp] theorem emit_params (e : Event ι α) (s : Engine.State δ ι α ε σ) : (emit e s).params = s.params := rfl
@[simp] theorem emit_dev (e : Event ι α) (s : Engine.State δ ι α ε σ) : (emit e s).dev = s.dev := rfl

/-! `raiseFault` -/

@[simp] theorem raiseFault_rf (f : FatalFault) (s : Engine.State δ ι α ε σ) : (raiseFault f s).rf = s.rf := rfl
@[simp] theorem raiseFault_pend (f : FatalFault) (s : Engine.State δ ι α ε σ) : (raiseFault f s).pend = s.pend := rfl
@[simp] theorem raiseFault_dec (f : FatalFault) (s : Engine.State δ ι α ε σ) : (raiseFault f s).dec = s.dec := rfl
@[simp] theorem raiseFault_mem (f : FatalFault) (s : Engine.State δ ι α ε σ) : (raiseFault f s).mem = s.mem := rfl
@[simp] theorem raiseFault_iomap (f : FatalFault) (s : Engine.State δ ι α ε σ) : (raiseFault f s).iomap = s.iomap := rfl
@[simp] theorem raiseFault_fault (f : FatalFault) (s : Engine.State δ ι α ε σ) : (raiseFault f s).fault = some f := rfl
@[simp] theorem raiseFault_histRev (f : FatalFault) (s : Engine.State δ ι α ε σ) :
    (raiseFault f s).histRev = .fault f :: s.histRev := rfl
@[simp] theorem raiseFault_params (f : FatalFault) (s : Engine.State δ ι α ε σ) :
    (raiseFault f s).params = s.params := rfl
@[simp] theorem raiseFault_dev (f : FatalFault) (s : Engine.State δ ι α ε σ) : (raiseFault f s).dev = s.dev := rfl

/-! `raiseInterrupt` -/

@[simp] theorem raiseInterrupt_rf (s : Engine.State δ ι α ε σ) : (raiseInterrupt s).rf = s.rf := rfl
@[simp] theorem raiseInterrupt_pend (s : Engine.State δ ι α ε σ) : (raiseInterrupt s).pend = true := rfl
@[simp] theorem raiseInterrupt_dec (s : Engine.State δ ι α ε σ) : (raiseInterrupt s).dec = s.dec := rfl
@[simp] theorem raiseInterrupt_mem (s : Engine.State δ ι α ε σ) : (raiseInterrupt s).mem = s.mem := rfl
@[simp] theorem raiseInterrupt_iomap (s : Engine.State δ ι α ε σ) : (raiseInterrupt s).iomap = s.iomap := rfl
@[simp] theorem raiseInterrupt_fault (s : Engine.State δ ι α ε σ) : (raiseInterrupt s).fault = s.fault := rfl
@[simp] theorem raiseInterrupt_histRev (s : Engine.State δ ι α ε σ) : (raiseInterrupt s).histRev = s.histRev := rfl
@[simp] theorem raiseInterrupt_params (s : Engine.State δ ι α ε σ) : (raiseInterrupt s).params = s.params := rfl
@[simp] theorem raiseInterrupt_dev (s : Engine.State δ ι α ε σ) : (raiseInterrupt s).dev = s.dev := rfl

/-! `devicesMove` -/

@[simp] theorem devicesMove_rf (v : σ) (s : Engine.State δ ι α ε σ) : (devicesMove v s).rf = s.rf := rfl
@[simp] theorem devicesMove_pend (v : σ) (s : Engine.State δ ι α ε σ) : (devicesMove v s).pend = s.pend := rfl
@[simp] theorem devicesMove_dec (v : σ) (s : Engine.State δ ι α ε σ) : (devicesMove v s).dec = s.dec := rfl
@[simp] theorem devicesMove_mem (v : σ) (s : Engine.State δ ι α ε σ) : (devicesMove v s).mem = s.mem := rfl
@[simp] theorem devicesMove_iomap (v : σ) (s : Engine.State δ ι α ε σ) : (devicesMove v s).iomap = s.iomap := rfl
@[simp] theorem devicesMove_fault (v : σ) (s : Engine.State δ ι α ε σ) : (devicesMove v s).fault = s.fault := rfl
@[simp] theorem devicesMove_histRev (v : σ) (s : Engine.State δ ι α ε σ) : (devicesMove v s).histRev = s.histRev := rfl
@[simp] theorem devicesMove_params (v : σ) (s : Engine.State δ ι α ε σ) : (devicesMove v s).params = s.params := rfl
@[simp] theorem devicesMove_dev (v : σ) (s : Engine.State δ ι α ε σ) : (devicesMove v s).dev = v := rfl

/-! `deliver` -/

@[simp] theorem deliver_rf (s : Engine.State δ ι α ε σ) : (deliver s).rf = { s.rf with ie := false } := rfl
@[simp] theorem deliver_pend (s : Engine.State δ ι α ε σ) : (deliver s).pend = false := rfl
@[simp] theorem deliver_dec (s : Engine.State δ ι α ε σ) : (deliver s).dec = s.dec := rfl
@[simp] theorem deliver_mem (s : Engine.State δ ι α ε σ) : (deliver s).mem = s.mem := rfl
@[simp] theorem deliver_iomap (s : Engine.State δ ι α ε σ) : (deliver s).iomap = s.iomap := rfl
@[simp] theorem deliver_fault (s : Engine.State δ ι α ε σ) : (deliver s).fault = s.fault := rfl
@[simp] theorem deliver_histRev (s : Engine.State δ ι α ε σ) :
    (deliver s).histRev = .interruptDelivered s.rf.im :: s.histRev := rfl
@[simp] theorem deliver_params (s : Engine.State δ ι α ε σ) : (deliver s).params = s.params := rfl
@[simp] theorem deliver_dev (s : Engine.State δ ι α ε σ) : (deliver s).dev = s.dev := rfl

/-! `feedInjected` -/

@[simp] theorem feedInjected_rf (f : Feed δ ι α) (b : Byte) (s : Engine.State δ ι α ε σ) :
    (feedInjected f b s).rf = s.rf := rfl
@[simp] theorem feedInjected_pend (f : Feed δ ι α) (b : Byte) (s : Engine.State δ ι α ε σ) :
    (feedInjected f b s).pend = s.pend := rfl
@[simp] theorem feedInjected_dec (f : Feed δ ι α) (b : Byte) (s : Engine.State δ ι α ε σ) :
    (feedInjected f b s).dec = (f s.dec b).1 := rfl
@[simp] theorem feedInjected_mem (f : Feed δ ι α) (b : Byte) (s : Engine.State δ ι α ε σ) :
    (feedInjected f b s).mem = s.mem := rfl
@[simp] theorem feedInjected_iomap (f : Feed δ ι α) (b : Byte) (s : Engine.State δ ι α ε σ) :
    (feedInjected f b s).iomap = s.iomap := rfl
@[simp] theorem feedInjected_fault (f : Feed δ ι α) (b : Byte) (s : Engine.State δ ι α ε σ) :
    (feedInjected f b s).fault = s.fault := rfl
@[simp] theorem feedInjected_histRev (f : Feed δ ι α) (b : Byte) (s : Engine.State δ ι α ε σ) :
    (feedInjected f b s).histRev = .fed b .injected :: s.histRev := rfl
@[simp] theorem feedInjected_params (f : Feed δ ι α) (b : Byte) (s : Engine.State δ ι α ε σ) :
    (feedInjected f b s).params = s.params := rfl
@[simp] theorem feedInjected_dev (f : Feed δ ι α) (b : Byte) (s : Engine.State δ ι α ε σ) :
    (feedInjected f b s).dev = s.dev := rfl

/-! `feedNormal` -/

@[simp] theorem feedNormal_rf (f : Feed δ ι α) (s : Engine.State δ ι α ε σ) :
    (feedNormal f s).rf = { s.rf with pc := s.rf.pc + 1 } := rfl
@[simp] theorem feedNormal_pend (f : Feed δ ι α) (s : Engine.State δ ι α ε σ) : (feedNormal f s).pend = s.pend := rfl
@[simp] theorem feedNormal_dec (f : Feed δ ι α) (s : Engine.State δ ι α ε σ) :
    (feedNormal f s).dec = (f s.dec (readByte s.mem s.rf.pc)).1 := rfl
@[simp] theorem feedNormal_mem (f : Feed δ ι α) (s : Engine.State δ ι α ε σ) : (feedNormal f s).mem = s.mem := rfl
@[simp] theorem feedNormal_iomap (f : Feed δ ι α) (s : Engine.State δ ι α ε σ) : (feedNormal f s).iomap = s.iomap := rfl
@[simp] theorem feedNormal_fault (f : Feed δ ι α) (s : Engine.State δ ι α ε σ) : (feedNormal f s).fault = s.fault := rfl
@[simp] theorem feedNormal_histRev (f : Feed δ ι α) (s : Engine.State δ ι α ε σ) :
    (feedNormal f s).histRev = .fed (readByte s.mem s.rf.pc) (.normal s.rf.pc) :: s.histRev := rfl
@[simp] theorem feedNormal_params (f : Feed δ ι α) (s : Engine.State δ ι α ε σ) :
    (feedNormal f s).params = s.params := rfl
@[simp] theorem feedNormal_dev (f : Feed δ ι α) (s : Engine.State δ ι α ε σ) : (feedNormal f s).dev = s.dev := rfl

/-! The register writes of `execute` -/

@[simp] theorem setPc_pc (w : Word) (rf : RegFile ε) : (rf.setPc w).pc = w := rfl
@[simp] theorem setPc_ie (w : Word) (rf : RegFile ε) : (rf.setPc w).ie = rf.ie := rfl
@[simp] theorem setPc_im (w : Word) (rf : RegFile ε) : (rf.setPc w).im = rf.im := rfl
@[simp] theorem setPc_ext (w : Word) (rf : RegFile ε) : (rf.setPc w).ext = rf.ext := rfl
@[simp] theorem setIe_pc (b : Bool) (rf : RegFile ε) : (rf.setIe b).pc = rf.pc := rfl
@[simp] theorem setIe_ie (b : Bool) (rf : RegFile ε) : (rf.setIe b).ie = b := rfl
@[simp] theorem setIe_im (b : Bool) (rf : RegFile ε) : (rf.setIe b).im = rf.im := rfl
@[simp] theorem setIe_ext (b : Bool) (rf : RegFile ε) : (rf.setIe b).ext = rf.ext := rfl
@[simp] theorem setIm_pc (m : InterruptMode) (rf : RegFile ε) : (rf.setIm m).pc = rf.pc := rfl
@[simp] theorem setIm_ie (m : InterruptMode) (rf : RegFile ε) : (rf.setIm m).ie = rf.ie := rfl
@[simp] theorem setIm_im (m : InterruptMode) (rf : RegFile ε) : (rf.setIm m).im = m := rfl
@[simp] theorem setIm_ext (m : InterruptMode) (rf : RegFile ε) : (rf.setIm m).ext = rf.ext := rfl
@[simp] theorem setA_pc (b : Byte) (rf : RegFile Ext) : (rf.setA b).pc = rf.pc := rfl
@[simp] theorem setA_ie (b : Byte) (rf : RegFile Ext) : (rf.setA b).ie = rf.ie := rfl
@[simp] theorem setA_im (b : Byte) (rf : RegFile Ext) : (rf.setA b).im = rf.im := rfl
@[simp] theorem setA_a (b : Byte) (rf : RegFile Ext) : (rf.setA b).ext.a = b := rfl
@[simp] theorem setA_sp (b : Byte) (rf : RegFile Ext) : (rf.setA b).ext.sp = rf.ext.sp := rfl
@[simp] theorem setSp_pc (w : Word) (rf : RegFile Ext) : (rf.setSp w).pc = rf.pc := rfl
@[simp] theorem setSp_ie (w : Word) (rf : RegFile Ext) : (rf.setSp w).ie = rf.ie := rfl
@[simp] theorem setSp_im (w : Word) (rf : RegFile Ext) : (rf.setSp w).im = rf.im := rfl
@[simp] theorem setSp_a (w : Word) (rf : RegFile Ext) : (rf.setSp w).ext.a = rf.ext.a := rfl
@[simp] theorem setSp_sp (w : Word) (rf : RegFile Ext) : (rf.setSp w).ext.sp = w := rfl

end Sys2Proof.Machine
end

