-- ==== Sys2Proof/Laws/Memory.lean ====
section
/-! SUPPORT. The laws of keyed lists, of Memory and of the I/O Map: a read after a write, everything else left alone,
and the canonical form kept. -/

namespace Sys2Proof.Machine

section Assoc
variable {β : Type}

theorem lookup_cons_ite (k : Nat) (e : Nat × β) (l : List (Nat × β)) :
    (e :: l).lookup k = if k = e.1 then some e.2 else l.lookup k := by
  obtain ⟨j, w⟩ := e
  by_cases h : k = j
  · simp [h]
  · have hb : (k == j) = false := beq_false_of_ne h
    simp [List.lookup_cons, h, hb]

theorem lookup_assocInsert (k j : Nat) (v : β) (l : List (Nat × β)) :
    (assocInsert k v l).lookup j = if j = k then some v else l.lookup j := by
  induction l with
  | nil => simp [assocInsert, lookup_cons_ite]
  | cons e l ih =>
    simp only [assocInsert]
    split_ifs with h1 h2 <;> simp only [lookup_cons_ite, ih] <;> split_ifs <;> simp_all

theorem lookup_assocErase (k j : Nat) (l : List (Nat × β)) :
    (assocErase k l).lookup j = if j = k then none else l.lookup j := by
  induction l with
  | nil => simp [assocErase]
  | cons e l ih =>
    simp only [assocErase] at ih
    by_cases h : e.1 = k <;> simp only [assocErase, List.filter_cons] <;>
      simp only [h, bne_self_eq_false, bne_iff_ne, ne_eq, not_false_eq_true, if_true, lookup_cons_ite, ih,
        Bool.false_eq_true, if_false] <;> split_ifs <;> simp_all

theorem mem_assocInsert {k : Nat} {v : β} {l : List (Nat × β)} {e : Nat × β} (h : e ∈ assocInsert k v l) :
    e = (k, v) ∨ e ∈ l := by
  induction l with
  | nil => simpa [assocInsert] using h
  | cons x l ih =>
    simp only [assocInsert] at h
    split_ifs at h <;> simp only [List.mem_cons] at h ⊢ <;> tauto

theorem assocInsert_sorted (k : Nat) (v : β) {l : List (Nat × β)} (h : AssocSorted l) :
    AssocSorted (assocInsert k v l) := by
  induction l with
  | nil => simp [assocInsert, AssocSorted]
  | cons x l ih =>
    obtain ⟨hx, hl⟩ := List.pairwise_cons.mp h
    simp only [assocInsert]
    split_ifs with h1 h2
    · refine List.pairwise_cons.mpr ⟨fun e he => ?_, h⟩
      rcases List.mem_cons.mp he with rfl | he
      · exact h1
      · exact h1.trans (hx e he)
    · exact List.pairwise_cons.mpr ⟨fun e he => h2 ▸ hx e he, hl⟩
    · refine List.pairwise_cons.mpr ⟨fun e he => ?_, ih hl⟩
      rcases mem_assocInsert he with rfl | he
      · show x.1 < k
        omega
      · exact hx e he

theorem assocErase_sorted (k : Nat) {l : List (Nat × β)} (h : AssocSorted l) : AssocSorted (assocErase k l) :=
  List.Pairwise.filter _ h

end Assoc

/-! ### Memory -/

theorem readByte_writeByte (m : Memory) (a b : Word) (v : Byte) :
    readByte (writeByte m a v) b = if b = a then v else readByte m b := by
  have hk : b.toNat = a.toNat ↔ b = a := BitVec.toNat_inj
  simp only [readByte, writeByte]
  split_ifs with hv hb hb <;> simp [lookup_assocInsert, lookup_assocErase, hk, hb, hv]

@[simp] theorem readByte_writeByte_self (m : Memory) (a : Word) (v : Byte) : readByte (writeByte m a v) a = v := by
  simp [readByte_writeByte]

theorem readByte_writeByte_ne (m : Memory) {a b : Word} (v : Byte) (h : b ≠ a) :
    readByte (writeByte m a v) b = readByte m b := by
  simp [readByte_writeByte, h]

/-- Every write keeps the canonical form of Memory. -/
theorem writeByte_wf {m : Memory} (h : Memory.wf m) (a : Word) (v : Byte) : Memory.wf (writeByte m a v) := by
  obtain ⟨hs, hc⟩ := h
  simp only [writeByte]
  split_ifs with hv
  · exact ⟨assocErase_sorted _ hs, fun c hm => hc c (List.mem_of_mem_filter hm)⟩
  · refine ⟨assocInsert_sorted _ _ hs, fun c hm => ?_⟩
    rcases mem_assocInsert hm with rfl | hm
    · exact ⟨a.isLt, hv⟩
    · exact hc c hm

theorem writeBytes_wf {m : Memory} (h : Memory.wf m) (a : Word) (bs : List Byte) :
    Memory.wf (writeBytes m a bs) := by
  induction bs generalizing m a with
  | nil => exact h
  | cons b bs ih => exact ih (writeByte_wf h a b) (a + 1)

/-- Loading an image keeps the canonical form. -/
theorem foldl_writeByte_wf (image : List (Word × Byte)) {m : Memory} (h : Memory.wf m) :
    Memory.wf (image.foldl (fun m c => writeByte m c.1 c.2) m) := by
  induction image generalizing m with
  | nil => exact h
  | cons c image ih => exact ih (writeByte_wf h c.1 c.2)

@[simp] theorem readBytes_length (m : Memory) (a : Word) (n : Nat) : (readBytes m a n).length = n := by
  induction n generalizing a with
  | zero => rfl
  | succ n ih => simp [readBytes, ih]

/-! ### The I/O Map -/

theorem deviceAt_insert (io : IoMap) (p : Byte) (k : Nat) (d : DeviceId) :
    deviceAt (assocInsert k d io) p = if p.toNat = k then some d else deviceAt io p := by
  simp [deviceAt, lookup_assocInsert]

theorem bindPorts_wf {ports : List Nat} (hp : portsWellFormed ports = true) (d : DeviceId) {io : IoMap}
    (h : IoMap.wf io) : IoMap.wf (bindPorts ports d io) := by
  simp only [bindPorts]
  induction ports generalizing io with
  | nil => exact h
  | cons p ports ih =>
    simp only [portsWellFormed, List.all_cons, Bool.and_eq_true, decide_eq_true_eq] at hp
    refine ih hp.2 ⟨assocInsert_sorted _ _ h.1, fun e he => ?_⟩
    rcases mem_assocInsert he with rfl | he
    · exact hp.1
    · exact h.2 e he

end Sys2Proof.Machine
end

