-- ==== Sys2Proof/Laws/Engine.lean ====
section
/-! SUPPORT. For each shared operation of the engine, what it can do: address dispatch, operand gather, commit, normal
fetch, injection, the choice of the step's instruction. Later proofs cite these and unfold none of them. -/

namespace Sys2Proof.Machine
open Sys2Proof.Engine (Decoder Devices)

variable {δ ι α ε σ : Type} (V : Devices σ)

/-- Two instructions found with their arguments and the state left are the same when their results are. -/
theorem ok_inj {η A B C : Type} {x x' : A} {y y' : B} {z z' : C}
    (h : (Except.ok (x, y, z) : Except η (A × B × C)) = .ok (x', y', z')) : x = x' ∧ y = y' ∧ z = z' := by
  simpa using h

/-! ### Dispatch -/

theorem classify_mem {a : Address} (h : a < 0x10000) : classify a = .mem (BitVec.ofNat 16 a) := by
  simp [classify, h]

theorem classify_port {a : Address} (h : 0x10000 ≤ a) : classify a = .port (BitVec.ofNat 8 a) := by
  simp [classify, Nat.not_lt.mpr h]

@[simp] theorem classify_memAddress (w : Word) : classify (memAddress w) = .mem w := by
  rw [memAddress, classify_mem w.isLt, BitVec.ofNat_toNat, BitVec.setWidth_eq]

@[simp] theorem classify_portAddress (n : Byte) : classify (portAddress n) = .port n := by
  rw [classify_port (by simp [portAddress])]
  congr 1
  apply BitVec.eq_of_toNat_eq
  have := n.isLt
  simp only [portAddress, BitVec.toNat_ofNat]
  omega

theorem classify_eq_mem {a : Address} {m : Word} (h : classify a = .mem m) : a = m.toNat := by
  by_cases ha : a < 0x10000
  · rw [classify_mem ha] at h
    obtain rfl := Target.mem.inj h
    rw [BitVec.toNat_ofNat, Nat.mod_eq_of_lt ha]
  · rw [classify_port (Nat.not_lt.mp ha)] at h
    cases h

/-- What a read can do: a memory byte and no change; one device call with one event; or the fault (R122–R124). -/
theorem resolveRead_cases (a : Address) (s : Engine.State δ ι α ε σ) :
    (∃ m, classify a = .mem m ∧ resolveRead V a s = .ok (readByte s.mem m, s)) ∨
    (∃ p d, classify a = .port p ∧ deviceAt s.iomap p = some d ∧
      resolveRead V a s = .ok ((V.read s.dev d p).1,
        { s with
          dev := (V.read s.dev d p).2
          histRev := .portRead p d (V.read s.dev d p).1 :: s.histRev })) ∨
    (∃ p, classify a = .port p ∧ deviceAt s.iomap p = none ∧
      resolveRead V a s = .error (raiseFault (.unboundPortRead p a) s)) := by
  simp only [resolveRead]
  cases hc : classify a with
  | mem m => exact .inl ⟨m, rfl, rfl⟩
  | port p =>
    simp only
    cases hd : deviceAt s.iomap p with
    | none => exact .inr (.inr ⟨p, rfl, hd, rfl⟩)
    | some d => exact .inr (.inl ⟨p, d, rfl, hd, rfl⟩)

/-- A write changes Memory, or calls the device and appends one event, or appends one event; nothing else (R125–R127). -/
theorem resolveWrite_eq (a : Address) (v : Byte) (s : Engine.State δ ι α ε σ) :
    resolveWrite V a v s =
      { s with
        mem := (match classify a with | .mem m => writeByte s.mem m v | .port _ => s.mem)
        dev := devicesWritten V s.iomap s.dev [(a, v)]
        histRev := (writeEvent s.iomap (a, v)).toList ++ s.histRev } := by
  simp only [resolveWrite, writeEvent, devicesWritten, List.foldl_cons, List.foldl_nil]
  cases classify a with
  | mem m => rfl
  | port p =>
    simp only
    cases deviceAt s.iomap p <;> rfl

/-! ### Commit -/

/-- What a commit leaves: Memory, the devices after their calls and the events of the port entries, in order; nothing
else (R154). -/
theorem commit_eq (ws : List (Address × Byte)) (s : Engine.State δ ι α ε σ) :
    commit V ws s =
      { s with
        mem := (commit V ws s).mem
        dev := devicesWritten V s.iomap s.dev ws
        histRev := (ws.filterMap (writeEvent s.iomap)).reverse ++ s.histRev } := by
  induction ws generalizing s with
  | nil => rfl
  | cons w ws ih =>
    simp only [commit]
    rw [ih, resolveWrite_eq]
    cases h : writeEvent (ι := ι) (α := α) s.iomap w <;> simp [h, devicesWritten]

/-- Each cell holds what the last entry that names it wrote (R68). -/
theorem readByte_commit (ws : List (Address × Byte)) (s : Engine.State δ ι α ε σ) (a : Word) :
    readByte (commit V ws s).mem a = lastWritten a (readByte s.mem a) ws := by
  induction ws generalizing s with
  | nil => rfl
  | cons w ws ih =>
    have hw : readByte (resolveWrite V w.1 w.2 s).mem a = if w.1 = a.toNat then w.2 else readByte s.mem a := by
      rw [resolveWrite_eq]
      cases hc : classify w.1 with
      | mem m =>
        have hm := classify_eq_mem hc
        simp only [readByte_writeByte, hm, BitVec.toNat_inj, eq_comm]
      | port p =>
        have : w.1 ≠ a.toNat := by
          intro h
          rw [h, classify_mem a.isLt] at hc
          cases hc
        simp [this]
    simp only [commit, lastWritten, List.foldl_cons]
    rw [ih, hw, lastWritten]

theorem commit_wf (ws : List (Address × Byte)) {s : Engine.State δ ι α ε σ} (h : Memory.wf s.mem) :
    Memory.wf (commit V ws s).mem := by
  induction ws generalizing s with
  | nil => exact h
  | cons w ws ih =>
    refine ih ?_
    rw [resolveWrite_eq]
    cases classify w.1 with
    | mem m => exact writeByte_wf h m w.2
    | port p => exact h

/-! ### Operand gather -/

/-- The events of reads only: what a gather appends. -/
def OnlyReads (es : List (Event ι α)) : Prop := ∀ e ∈ es, ∃ p d v, e = .portRead p d v

/-- A gather that succeeds read one byte an entry, and changed only the devices and the history (R151). -/
theorem gather_ok {as : List Address} {s t : Engine.State δ ι α ε σ} {data : List Byte}
    (h : gather V as s = .ok (data, t)) :
    data.length = as.length ∧
      ∃ es, OnlyReads es ∧ t = { s with dev := t.dev, histRev := es ++ s.histRev } := by
  induction as generalizing s data with
  | nil =>
    obtain ⟨rfl, rfl⟩ := Prod.mk.inj (Except.ok.inj h)
    exact ⟨rfl, [], by simp [OnlyReads], rfl⟩
  | cons a as ih =>
    simp only [gather] at h
    rcases resolveRead_cases V a s with ⟨m, -, hr⟩ | ⟨p, d, -, -, hr⟩ | ⟨p, -, -, hr⟩ <;> rw [hr] at h <;> simp only at h
    · split at h
      · cases h
      · rename_i vs t' hg
        obtain ⟨rfl, rfl⟩ := Prod.mk.inj (Except.ok.inj h)
        obtain ⟨hl, es, he, ht⟩ := ih hg
        exact ⟨by simp [hl], es, he, ht⟩
    · split at h
      · cases h
      · rename_i vs t' hg
        obtain ⟨rfl, rfl⟩ := Prod.mk.inj (Except.ok.inj h)
        obtain ⟨hl, es, he, ht⟩ := ih hg
        refine ⟨by simp [hl], es ++ [.portRead p d (V.read s.dev d p).1], ?_, ?_⟩
        · intro e hm
          rcases List.mem_append.mp hm with hm | hm
          · exact he e hm
          · exact ⟨p, d, _, by simpa using hm⟩
        · rw [ht]
          simp
    · cases h

/-- A gather that faults stopped at the first unbound port, with its fault, and had changed only the devices and the
history before (R151, R157). -/
theorem gather_error {as : List Address} {s t : Engine.State δ ι α ε σ} (h : gather V as s = .error t) :
    ∃ p, ∃ a ∈ as, classify a = .port p ∧ deviceAt s.iomap p = none ∧ ∃ es, OnlyReads es ∧
      t = { s with
            dev := t.dev
            fault := some (.unboundPortRead p a)
            histRev := .fault (.unboundPortRead p a) :: (es ++ s.histRev) } := by
  induction as generalizing s with
  | nil => cases h
  | cons a as ih =>
    simp only [gather] at h
    rcases resolveRead_cases V a s with ⟨m, -, hr⟩ | ⟨p, d, -, -, hr⟩ | ⟨p, hc, hn, hr⟩ <;> rw [hr] at h <;> simp only at h
    · split at h
      · rename_i t' hg
        obtain rfl := Except.error.inj h
        obtain ⟨q, b, hb, hq, hn, es, he, ht⟩ := ih hg
        exact ⟨q, b, List.mem_cons_of_mem a hb, hq, hn, es, he, ht⟩
      · cases h
    · split at h
      · rename_i t' hg
        obtain rfl := Except.error.inj h
        obtain ⟨q, b, hb, hq, hn, es, he, ht⟩ := ih hg
        refine ⟨q, b, List.mem_cons_of_mem a hb, hq, hn, es ++ [.portRead p d (V.read s.dev d p).1], ?_, ?_⟩
        · intro e hm
          rcases List.mem_append.mp hm with hm | hm
          · exact he e hm
          · exact ⟨p, d, _, by simpa using hm⟩
        · rw [ht]
          simp
      · cases h
    · obtain rfl := Except.error.inj h
      exact ⟨p, a, List.mem_cons_self, hc, hn, [], by simp [OnlyReads], rfl⟩

/-- A gather over two lists is one over the first and then one over the second (R151). -/
theorem gather_append (as bs : List Address) (s : Engine.State δ ι α ε σ) :
    gather V (as ++ bs) s =
      match gather V as s with
      | .error t => .error t
      | .ok (data, t) =>
        match gather V bs t with
        | .error u => .error u
        | .ok (data', u) => .ok (data ++ data', u) := by
  induction as generalizing s with
  | nil =>
    simp only [List.nil_append, gather]
    cases gather V bs s <;> rfl
  | cons a as ih =>
    simp only [List.cons_append, gather]
    cases resolveRead V a s with
    | error t => rfl
    | ok r =>
      simp only [ih]
      cases gather V as r.2 with
      | error t => rfl
      | ok q => simp only; cases gather V bs q.2 <;> rfl

/-- What the end of a step can do for a completed instruction, of any decoder and with any devices (R151–R155, R157): it
completes, with `StepReturn` as its newest event, after appending events of port accesses; or it raises the fatal fault of
an unbound port of its read list, and changes only the devices and the history before. -/
theorem runInstr_cases (i : ι) (args : α) (reads : RegFile ε → List Address)
    (execute : RegFile ε → List Byte → RegFile ε × List (Address × Byte)) (s : Engine.State δ ι α ε σ) :
    (∃ data t es, gather V (reads s.rf) s = .ok (data, t) ∧
      runInstr V i args reads execute s = .next { s with
        rf := (execute s.rf data).1
        mem := (commit V (execute s.rf data).2 s).mem
        dev := devicesWritten V s.iomap t.dev (execute s.rf data).2
        histRev := .stepReturn i args :: (es ++ s.histRev) } ∧
      ∀ e ∈ es, e.isStepReturn = false ∧ ∀ f, e ≠ .fault f) ∨
    (∃ t p, ∃ a ∈ reads s.rf, classify a = .port p ∧ deviceAt s.iomap p = none ∧
      ∃ es, OnlyReads es ∧ runInstr V i args reads execute s = .next t ∧
      t = { s with
            dev := t.dev
            fault := some (.unboundPortRead p a)
            histRev := .fault (.unboundPortRead p a) :: (es ++ s.histRev) }) := by
  simp only [runInstr]
  cases hg : gather V (reads s.rf) s with
  | error t =>
    obtain ⟨p, a, ha, hc, hn, es, he, ht⟩ := gather_error V hg
    exact .inr ⟨t, p, a, ha, hc, hn, es, he, rfl, ht⟩
  | ok r =>
    obtain ⟨data, t⟩ := r
    obtain ⟨-, es, he, ht⟩ := gather_ok V hg
    refine .inl ⟨data, t, ((execute s.rf data).2.filterMap (writeEvent s.iomap)).reverse ++ es, rfl, ?_, ?_⟩
    · have hm : ∀ (ws : List (Address × Byte)) (x y : Engine.State δ ι α ε σ), x.mem = y.mem →
          (commit V ws x).mem = (commit V ws y).mem := by
        intro ws
        induction ws with
        | nil => exact fun _ _ h => h
        | cons w ws ih =>
          intro x y h
          refine ih _ _ ?_
          rw [resolveWrite_eq, resolveWrite_eq]
          simp only [h]
      simp only [emit]
      rw [commit_eq]
      have := hm (execute s.rf data).2 { t with rf := (execute s.rf data).1 } s (by rw [ht])
      simp only at this ⊢
      rw [this]
      rw [ht]
      simp
    · intro e hm
      rcases List.mem_append.mp hm with hm | hm
      · rw [List.mem_reverse, List.mem_filterMap] at hm
        obtain ⟨w, -, hw⟩ := hm
        simp only [writeEvent] at hw
        split at hw
        · cases hw
        · split at hw <;> (obtain rfl := Option.some.inj hw; simp [Event.isStepReturn])
      · obtain ⟨p, d, v, rfl⟩ := he e hm
        simp [Event.isStepReturn]

/-! ### Normal fetch -/

theorem afterFetch_zero (s : Engine.State δ ι α ε σ) : afterFetch 0 s.dec s = s := by
  simp [afterFetch, fedEvents]

/-- One feed, then `n` more, is `n + 1` feeds. -/
theorem afterFetch_feedNormal (f : Feed δ ι α) (n : Nat) (d : δ) (s : Engine.State δ ι α ε σ) :
    afterFetch n d (feedNormal f s) = afterFetch (n + 1) d s := by
  have hpc : s.rf.pc + 1 + BitVec.ofNat 16 n = s.rf.pc + BitVec.ofNat 16 (n + 1) := by
    rw [BitVec.add_assoc, Nat.add_comm n 1, BitVec.ofNat_add]
    rfl
  simp only [afterFetch, feedNormal_rf, feedNormal_mem, feedNormal_histRev, fedEvents, hpc, List.reverse_cons,
    List.append_assoc, List.singleton_append]
  rfl

/-- The fetch loop by the results of the feeds: it stops at the first that completes (R149) … -/
theorem fetchLoop_complete (f : Feed δ ι α) (e : FatalFault) {n k : Nat} (hn : n ≤ k) {i : ι} {a : α} {s : Engine.State δ ι α ε σ}
    (h : (feedAll f s.dec (readBytes s.mem s.rf.pc (n + 1))).2 = List.replicate n .incomplete ++ [.complete i a]) :
    fetchLoop f e k s =
      .ok (i, a, afterFetch (n + 1) (feedAll f s.dec (readBytes s.mem s.rf.pc (n + 1))).1 s) := by
  induction n generalizing k s with
  | zero =>
    simp only [readBytes, feedAll, List.replicate_zero, List.nil_append, List.cons.injEq, and_true] at h
    unfold fetchLoop
    rw [h, ← afterFetch_feedNormal f]
    exact congrArg (fun t => Except.ok (i, a, t)) (afterFetch_zero (feedNormal f s)).symm
  | succ n ih =>
    obtain ⟨k, rfl⟩ : ∃ m, k = m + 1 := ⟨k - 1, by omega⟩
    rw [readBytes, feedAll, List.replicate_succ, List.cons_append, List.cons.injEq] at h
    unfold fetchLoop
    rw [h.1]
    have h2 := ih (s := feedNormal f s) (k := k) (by omega) h.2
    simp only [h2, afterFetch_feedNormal]
    rfl

/-- … and faults when the last byte of the budget still yields `Incomplete` (R150). -/
theorem fetchLoop_incomplete (f : Feed δ ι α) (e : FatalFault) {k : Nat} {s : Engine.State δ ι α ε σ}
    (h : (feedAll f s.dec (readBytes s.mem s.rf.pc (k + 1))).2 = List.replicate (k + 1) .incomplete) :
    fetchLoop f e k s =
      .error (raiseFault e (afterFetch (k + 1) (feedAll f s.dec (readBytes s.mem s.rf.pc (k + 1))).1 s)) := by
  induction k generalizing s with
  | zero =>
    simp only [readBytes, feedAll, List.replicate_succ, List.replicate_zero, List.cons.injEq, and_true] at h
    unfold fetchLoop
    rw [h, ← afterFetch_feedNormal f]
    exact congrArg (fun t => Except.error (raiseFault e t)) (afterFetch_zero (feedNormal f s)).symm
  | succ k ih =>
    rw [readBytes, feedAll, List.replicate_succ, List.cons.injEq] at h
    unfold fetchLoop
    rw [h.1]
    have h2 := ih (s := feedNormal f s) h.2
    simp only [h2, afterFetch_feedNormal]
    rfl

/-- Of a list of feeds either one is the first to complete, or none completes. -/
theorem feedAll_cases (f : Feed δ ι α) (d : δ) (m : Memory) (pc : Word) (k : Nat) :
    (∃ n i a, n < k ∧
      (feedAll f d (readBytes m pc (n + 1))).2 = List.replicate n .incomplete ++ [.complete i a]) ∨
    (feedAll f d (readBytes m pc k)).2 = List.replicate k .incomplete := by
  induction k generalizing d pc with
  | zero => exact .inr rfl
  | succ k ih =>
    cases hr : (f d (readByte m pc)).2 with
    | complete i a => exact .inl ⟨0, i, a, by omega, by simp [readBytes, feedAll, hr]⟩
    | incomplete =>
      rcases ih (f d (readByte m pc)).1 (pc + 1) with ⟨n, i, a, hn, h⟩ | h
      · refine .inl ⟨n + 1, i, a, by omega, ?_⟩
        rw [readBytes, feedAll, hr, h, List.replicate_succ, List.cons_append]
      · refine .inr ?_
        rw [readBytes, feedAll, hr, h, List.replicate_succ]

/-- Bytes that are one instruction: every feed but the last is `Incomplete`. -/
theorem feedAll_of_completesAtEnd {f : Feed δ ι α} {d : δ} {bs : List Byte} (h : completesAtEnd f d bs = true) :
    ∃ n i a, bs.length = n + 1 ∧ (feedAll f d bs).2 = List.replicate n .incomplete ++ [.complete i a] := by
  induction bs generalizing d with
  | nil => cases h
  | cons b bs ih =>
    rw [completesAtEnd] at h
    cases hr : (f d b).2 with
    | complete i a =>
      rw [hr] at h
      obtain rfl := List.isEmpty_iff.mp h
      exact ⟨0, i, a, rfl, by simp [feedAll, hr]⟩
    | incomplete =>
      rw [hr] at h
      obtain ⟨n, i, a, hn, hf⟩ := ih h
      exact ⟨n + 1, i, a, by rw [List.length_cons, hn], by
        rw [feedAll, hr, hf, List.replicate_succ, List.cons_append]⟩

/-- The decoder stands at `dec_init` after a completed instruction, for every decoder that keeps its contract (R102). -/
theorem feedAll_complete_dec {f : Feed δ ι α} {init : δ} (hf : FeedContract init f) {n : Nat} {i : ι} {a : α} {d : δ} {bs : List Byte}
    (h : (feedAll f d bs).2 = List.replicate n .incomplete ++ [.complete i a]) : (feedAll f d bs).1 = init := by
  induction bs generalizing d n with
  | nil => simp [feedAll] at h
  | cons b bs ih =>
    cases n with
    | zero =>
      simp only [feedAll, List.replicate_zero, List.nil_append, List.cons.injEq] at h
      obtain ⟨h1, h2⟩ := h
      cases bs with
      | nil => exact hf d b i a h1
      | cons c bs => simp [feedAll] at h2
    | succ n =>
      rw [feedAll, List.replicate_succ, List.cons_append, List.cons.injEq] at h
      exact ih h.2

/-- TD's decoder state stays within its bound (R200). -/
theorem feed_bounded {d : DecState} (b : Byte) (_ : decBounded d) : decBounded (feed d b).1 := by
  cases hr : (feed d b).2 with
  | complete i a =>
    rw [feed_contract d b i a hr]
    simp [decBounded, decInit]
  | incomplete =>
    rcases feed_incomplete_cases hr with h | ⟨s, -, h, hp⟩
    · simp [h, decBounded]
    · simpa [h, decBounded] using isProperPrefix_length hp

theorem feedAll_bounded {d : DecState} (bs : List Byte) (h : decBounded d) : decBounded (feedAll feed d bs).1 := by
  induction bs generalizing d with
  | nil => exact h
  | cons b bs ih => exact ih (feed_bounded b h)

/-- What a normal fetch can do (R149, R150). -/
theorem fetch_cases (f : Feed δ ι α) (s : Engine.State δ ι α ε σ) :
    (∃ n i a, n < s.params.decodeBudget.val ∧
      (feedAll f s.dec (readBytes s.mem s.rf.pc (n + 1))).2 = List.replicate n .incomplete ++ [.complete i a] ∧
      fetch f s = .ok (i, a, afterFetch (n + 1) (feedAll f s.dec (readBytes s.mem s.rf.pc (n + 1))).1 s)) ∨
    ((feedAll f s.dec (readBytes s.mem s.rf.pc s.params.decodeBudget.val)).2 =
        List.replicate s.params.decodeBudget.val .incomplete ∧
      fetch f s =
        .error (raiseFault (.decodeFault s.rf.pc s.params.decodeBudget.val)
          (afterFetch s.params.decodeBudget.val
            (feedAll f s.dec (readBytes s.mem s.rf.pc s.params.decodeBudget.val)).1 s))) := by
  have hb := s.params.decodeBudget.property
  have hk : s.params.decodeBudget.val - 1 + 1 = s.params.decodeBudget.val := by omega
  rcases feedAll_cases f s.dec s.mem s.rf.pc s.params.decodeBudget.val with ⟨n, i, a, hn, h⟩ | h
  · exact .inl ⟨n, i, a, hn, h, fetchLoop_complete f _ (by omega) h⟩
  · refine .inr ⟨h, ?_⟩
    have := fetchLoop_incomplete f (.decodeFault s.rf.pc s.params.decodeBudget.val)
      (k := s.params.decodeBudget.val - 1) (s := s) (by rw [hk]; exact h)
    rwa [hk] at this

/-! ### Injection and the choice of the step's instruction -/

/-- What an injection can do (R146, R147). -/
theorem inject_deliver_cases (f : Feed δ ι α) (s : Engine.State δ ι α ε σ) :
    (∃ i a, (feedAll f s.dec [0xCD, 0x38, 0x00]).2[2]? = some (.complete i a) ∧
      inject f (deliver s) = .ok (i, a, afterInjection f s)) ∨
    ((feedAll f s.dec [0xCD, 0x38, 0x00]).2[2]? = some .incomplete ∧
      inject f (deliver s) = .error (raiseFault .injectionIncomplete (afterInjection f s))) := by
  simp only [inject, feedAll]
  cases hr : (f (feedInjected f 0x38 (feedInjected f 0xCD (deliver s))).dec 0x00).2 with
  | complete i a => exact .inl ⟨i, a, by simpa using hr, rfl⟩
  | incomplete => exact .inr ⟨by simpa using hr, rfl⟩

/-- What the choice of the step's instruction can be (R142–R148). -/
theorem acquire_cases (f : Feed δ ι α) (s : Engine.State δ ι α ε σ) :
    (deliveryDue s = false ∧ acquire f s = fetch f s) ∨
    (deliveryDue s = true ∧ s.rf.im = .mode1 ∧ acquire f s = inject f (deliver s)) ∨
    (deliveryDue s = true ∧ s.rf.im ≠ .mode1 ∧ s.params.imPolicy = .reject ∧
      acquire f s = .error (raiseFault (.unsupportedInterruptMode s.rf.im) (deliver s))) ∨
    (deliveryDue s = true ∧ s.rf.im ≠ .mode1 ∧ s.params.imPolicy = .noOp ∧ acquire f s = fetch f (deliver s)) := by
  simp only [acquire]
  cases hd : deliveryDue s with
  | false => exact .inl ⟨rfl, rfl⟩
  | true => cases hm : s.rf.im <;> cases hp : s.params.imPolicy <;> simp

end Sys2Proof.Machine
end

