-- ==== Sys2Proof/Laws/Exec.lean ====
section
/-! SUPPORT. What the instruction shapes and `exec` can do, and that `exec` and `step` are the engine with TD. -/

namespace Sys2Proof.Machine

/-! ### The shapes -/

/-- The oracle forgets every write (R128). -/
@[simp] theorem devicesWritten_oracle (io : IoMap) (o : Oracle) (ws : List (Address × Byte)) :
    devicesWritten oracle io o ws = o := by
  induction ws with
  | nil => rfl
  | cons w ws ih =>
    rw [devicesWritten, List.foldl_cons]
    refine Eq.trans ?_ ih
    rw [devicesWritten]
    congr 1
    cases classify w.1 with
    | mem m => rfl
    | port p =>
      simp only
      cases deviceAt io p <;> rfl

/-- An instruction with no read list always completes (R106, R152–R155). -/
theorem runOffer_noRead (i : Instr) (execute : RegFile Ext → RegFile Ext × List (Address × Byte)) (s : State) :
    runOffer i (noRead execute) s =
      .next { s with
        rf := (execute s.rf).1
        mem := (commit oracle (execute s.rf).2 { s with rf := (execute s.rf).1 }).mem
        histRev := .stepReturn i i.args ::
          (((execute s.rf).2.filterMap (writeEvent s.iomap)).reverse ++ s.histRev) } := by
  simp only [runOffer, noRead, runInstr, gather, emit]
  rw [commit_eq]
  simp

/-- An instruction that reads one memory cell always completes (R122, R151). -/
theorem runOffer_readOne_mem (i : Instr) {a : Address}
    (execute : RegFile Ext → Byte → RegFile Ext × List (Address × Byte)) {s : State} {m : Word}
    (h : classify a = .mem m) :
    runOffer i (readOne a execute) s =
      .next (emit (.stepReturn i i.args)
        (commit oracle (execute s.rf (readByte s.mem m)).2
          { s with rf := (execute s.rf (readByte s.mem m)).1 })) := by
  simp [runOffer, readOne, runInstr, gather, resolveRead, h]

/-- An instruction that reads one bound port completes with the device's byte (R123, R151). -/
theorem runOffer_readOne_bound (i : Instr) {a : Address}
    (execute : RegFile Ext → Byte → RegFile Ext × List (Address × Byte)) {s : State} {p : Byte} {d : DeviceId}
    (h : classify a = .port p) (hd : deviceAt s.iomap p = some d) :
    runOffer i (readOne a execute) s =
      .next (emit (.stepReturn i i.args)
        (commit oracle (execute s.rf (oracleRead s.dev d p).1).2
          { s with
            rf := (execute s.rf (oracleRead s.dev d p).1).1
            dev := (oracleRead s.dev d p).2
            histRev := .portRead p d (oracleRead s.dev d p).1 :: s.histRev })) := by
  simp [runOffer, readOne, runInstr, gather, resolveRead, h, hd, oracle, emit]

/-- An instruction that reads one unbound port raises the fatal fault and does nothing else (R124, R157). -/
theorem runOffer_readOne_unbound (i : Instr) {a : Address}
    (execute : RegFile Ext → Byte → RegFile Ext × List (Address × Byte)) {s : State} {p : Byte}
    (h : classify a = .port p) (hd : deviceAt s.iomap p = none) :
    runOffer i (readOne a execute) s = .next (raiseFault (.unboundPortRead p a) s) := by
  simp [runOffer, readOne, runInstr, gather, resolveRead, h, hd]

/-- A pop reads the word at SP, low byte first, and always completes (R209). -/
theorem runOffer_pop (i : Instr) (execute : RegFile Ext → Word → RegFile Ext × List (Address × Byte)) (s : State) :
    runOffer i (pop execute) s =
      .next (emit (.stepReturn i i.args)
        (commit oracle
          (execute s.rf (leWord (readByte s.mem s.rf.ext.sp) (readByte s.mem (s.rf.ext.sp + 1)))).2
          { s with
            rf := (execute s.rf (leWord (readByte s.mem s.rf.ext.sp) (readByte s.mem (s.rf.ext.sp + 1)))).1 })) := by
  simp [runOffer, pop, runInstr, gather, popReads, resolveRead]

/-! ### The shape of each meaning -/

theorem exec_nop (s : State) :
    exec .nop s = runOffer .nop (noRead fun rf => (rf, [])) s := rfl

theorem exec_call (nn : Word) (s : State) :
    exec (.call nn) s = runOffer (.call nn) (noRead fun rf => ((rf.setPc nn).setSp (rf.ext.sp - 2), pushWrites rf.ext.sp rf.pc)) s := rfl

theorem exec_ldAImm (n : Byte) (s : State) :
    exec (.ldAImm n) s = runOffer (.ldAImm n) (noRead fun rf => (rf.setA n, [])) s := rfl

theorem exec_ldSpImm (nn : Word) (s : State) :
    exec (.ldSpImm nn) s = runOffer (.ldSpImm nn) (noRead fun rf => (rf.setSp nn, [])) s := rfl

theorem exec_ldMemA (nn : Word) (s : State) :
    exec (.ldMemA nn) s = runOffer (.ldMemA nn) (noRead fun rf => (rf, [(memAddress nn, rf.ext.a)])) s := rfl

theorem exec_ldAMem (nn : Word) (s : State) :
    exec (.ldAMem nn) s = runOffer (.ldAMem nn) (readOne (memAddress nn) fun rf v => (rf.setA v, [])) s := rfl

theorem exec_jp (nn : Word) (s : State) :
    exec (.jp nn) s = runOffer (.jp nn) (noRead fun rf => (rf.setPc nn, [])) s := rfl

theorem exec_ret (s : State) :
    exec .ret s = runOffer .ret (pop fun rf w => ((rf.setPc w).setSp (rf.ext.sp + 2), [])) s := rfl

theorem exec_outPortA (n : Byte) (s : State) :
    exec (.outPortA n) s = runOffer (.outPortA n) (noRead fun rf => (rf, [(portAddress n, rf.ext.a)])) s := rfl

theorem exec_inAPort (n : Byte) (s : State) :
    exec (.inAPort n) s = runOffer (.inAPort n) (readOne (portAddress n) fun rf v => (rf.setA v, [])) s := rfl

theorem exec_di (s : State) :
    exec .di s = runOffer .di (noRead fun rf => (rf.setIe false, [])) s := rfl

theorem exec_ei (s : State) :
    exec .ei s = runOffer .ei (noRead fun rf => (rf.setIe true, [])) s := rfl

theorem exec_im0 (s : State) :
    exec .im0 s = runOffer .im0 (noRead fun rf => (rf.setIm .mode0, [])) s := rfl

theorem exec_im1 (s : State) :
    exec .im1 s = runOffer .im1 (noRead fun rf => (rf.setIm .mode1, [])) s := rfl

theorem exec_im2 (s : State) :
    exec .im2 s = runOffer .im2 (noRead fun rf => (rf.setIm .mode2, [])) s := rfl

/-! ### `exec` and `step` are the engine with TD -/

/-- Each meaning is the end of a step with the instruction's own `read_addresses` and `execute`. -/
theorem exec_eq_runOffer (i : Instr) (s : State) : exec i s = runOffer i (offer i) s := by
  cases i <;> rfl

theorem exec_eq_runDecoded (i : Instr) (s : State) : exec i s = runDecoded testDecoder oracle i i.args s :=
  exec_eq_runOffer i s

/-- Every completed feed of TD yields the instruction with its own `args`. -/
theorem feedAll_args {d : DecState} {bs : List Byte} {i : Instr} {a : List Byte}
    (h : .complete i a ∈ (feedAll feed d bs).2) : a = i.args := by
  induction bs generalizing d with
  | nil => cases h
  | cons b bs ih =>
    rcases List.mem_cons.mp h with h | h
    · exact (feed_complete_cases h.symm).1
    · exact ih h

theorem fetch_args {s t : State} {i : Instr} {a : List Byte} (h : fetch feed s = .ok (i, a, t)) : a = i.args := by
  rcases fetch_cases feed s with ⟨n, j, b, -, hr, hf⟩ | ⟨-, hf⟩
  · rw [hf] at h
    obtain ⟨rfl, rfl, -⟩ := ok_inj h
    exact feedAll_args (by rw [hr]; simp)
  · rw [hf] at h
    cases h

/-- The instruction of a step comes with its own `args`, fetched or injected (R83, R217). -/
theorem acquire_args {s t : State} {i : Instr} {a : List Byte} (h : acquire feed s = .ok (i, a, t)) : a = i.args := by
  rcases acquire_cases feed s with ⟨-, ha⟩ | ⟨-, -, ha⟩ | ⟨-, -, -, ha⟩ | ⟨-, -, -, ha⟩ <;> rw [ha] at h
  · exact fetch_args h
  · rcases inject_deliver_cases feed s with ⟨j, b, hr, hj⟩ | ⟨-, hj⟩
    · rw [hj] at h
      obtain ⟨rfl, rfl, -⟩ := ok_inj h
      exact feedAll_args (List.mem_of_getElem? hr)
    · rw [hj] at h
      cases h
  · cases h
  · exact fetch_args h

/-! ### What `exec` can do -/

/-- Everything `exec` can do, whatever the instruction: it completes, with `StepReturn` as its newest event, after
appending events of port accesses; or it raises the fatal fault of an unbound port read and does nothing else. -/
theorem exec_cases (i : Instr) (s : State) :
    (∃ rf' mem' dev' es,
      exec i s = .next { s with
        rf := rf'
        mem := mem'
        dev := dev'
        histRev := .stepReturn i i.args :: (es ++ s.histRev) } ∧
      (Memory.wf s.mem → Memory.wf mem') ∧
      (∀ e ∈ es, e.isStepReturn = false ∧ ∀ f, e ≠ .fault f)) ∨
    (∃ n, i = .inAPort n ∧ deviceAt s.iomap n = none ∧
      exec i s = .next (raiseFault (.unboundPortRead n (portAddress n)) s)) := by
  rw [exec_eq_runOffer, runOffer]
  rcases runInstr_cases oracle i i.args (offer i).reads (offer i).execute s with
    ⟨data, t, es, -, h, he⟩ | ⟨t, p, a, ha, hc, hn, -⟩
  · exact .inl ⟨_, _, _, es, h, fun hw => commit_wf oracle _ hw, he⟩
  · right
    cases i with
    | inAPort n =>
      obtain rfl : a = portAddress n := List.mem_singleton.mp ha
      rw [classify_portAddress] at hc
      obtain rfl := Target.port.inj hc
      exact ⟨n, rfl, hn, runOffer_readOne_unbound (.inAPort n) _ (classify_portAddress n) hn⟩
    | ldAMem nn =>
      obtain rfl : a = memAddress nn := List.mem_singleton.mp ha
      rw [classify_memAddress] at hc
      cases hc
    | ret =>
      rcases List.mem_pair.mp ha with rfl | rfl <;> (rw [classify_memAddress] at hc; cases hc)
    | _ => cases ha

end Sys2Proof.Machine
end

