-- ==== Sys2Proof/Laws/PerInstr.lean ====
section
/-! SUPPORT. Facts about each instruction as syntax. -/

namespace Sys2Proof.Laws.Encoding

/-- The encoding of an instruction is one to three bytes long, and ends with the argument bytes: `args` is all of it
after the fixed bytes (30_encoding.md R83, R89). -/
def Statement (i : Instr) : Prop :=
  1 ≤ (encode i).length ∧ (encode i).length ≤ longestInstr ∧
    ∃ fixed, encode i = fixed ++ i.args ∧ fixed.length ≤ 2

theorem nop : Statement .nop := ⟨by decide, by decide, [0x00], rfl, by decide⟩
theorem call (nn : Word) : Statement (.call nn) := ⟨by simp [encode], by simp [encode, longestInstr], [0xCD], rfl, by decide⟩
theorem ldAImm (n : Byte) : Statement (.ldAImm n) := ⟨by simp [encode], by simp [encode, longestInstr], [0x3E], rfl, by decide⟩
theorem ldSpImm (nn : Word) : Statement (.ldSpImm nn) :=
  ⟨by simp [encode], by simp [encode, longestInstr], [0x31], rfl, by decide⟩
theorem ldMemA (nn : Word) : Statement (.ldMemA nn) := ⟨by simp [encode], by simp [encode, longestInstr], [0x32], rfl, by decide⟩
theorem ldAMem (nn : Word) : Statement (.ldAMem nn) := ⟨by simp [encode], by simp [encode, longestInstr], [0x3A], rfl, by decide⟩
theorem jp (nn : Word) : Statement (.jp nn) := ⟨by simp [encode], by simp [encode, longestInstr], [0xC3], rfl, by decide⟩
theorem ret : Statement .ret := ⟨by decide, by decide, [0xC9], rfl, by decide⟩
theorem outPortA (n : Byte) : Statement (.outPortA n) :=
  ⟨by simp [encode], by simp [encode, longestInstr], [0xD3], rfl, by decide⟩
theorem inAPort (n : Byte) : Statement (.inAPort n) := ⟨by simp [encode], by simp [encode, longestInstr], [0xDB], rfl, by decide⟩
theorem di : Statement .di := ⟨by decide, by decide, [0xF3], rfl, by decide⟩
theorem ei : Statement .ei := ⟨by decide, by decide, [0xFB], rfl, by decide⟩
theorem im0 : Statement .im0 := ⟨by decide, by decide, [0xED, 0x46], rfl, by decide⟩
theorem im1 : Statement .im1 := ⟨by decide, by decide, [0xED, 0x56], rfl, by decide⟩
theorem im2 : Statement .im2 := ⟨by decide, by decide, [0xED, 0x5E], rfl, by decide⟩

end Sys2Proof.Laws.Encoding
end

