-- ==== Sys2Proof/Laws/Step.lean ====
section
/-! SUPPORT. What one step can do: the choice of the instruction (fetch or delivery), then the instruction's meaning. -/

namespace Sys2Proof.Machine
open Sys2Proof.Engine (Decoder Devices)

variable {δ ι α ε σ : Type}

/-- The events the choice of the instruction appends: feeds and deliveries. -/
def OnlyFeeds (es : List (Event ι α)) : Prop :=
  ∀ e ∈ es, (∃ b src, e = .fed b src) ∨ ∃ m, e = .interruptDelivered m

theorem fedEvents_onlyFeeds (m : Memory) (pc : Word) (n : Nat) : OnlyFeeds (fedEvents (ι := ι) (α := α) m pc n).reverse := by
  induction n generalizing pc with
  | zero => simp [OnlyFeeds, fedEvents]
  | succ n ih =>
    intro e he
    simp only [fedEvents, List.reverse_cons, List.mem_append, List.mem_singleton] at he
    rcases he with he | rfl
    · exact ih _ e he
    · exact .inl ⟨_, _, rfl⟩

theorem fedEvents_ne_nil (m : Memory) (pc : Word) {n : Nat} (h : 0 < n) :
    (fedEvents (ι := ι) (α := α) m pc n).reverse ≠ [] := by
  obtain ⟨n, rfl⟩ : ∃ k, n = k + 1 := ⟨n - 1, by omega⟩
  simp [fedEvents]

theorem onlyFeeds_append_delivered {es : List (Event ι α)} (h : OnlyFeeds es) (m : InterruptMode) :
    OnlyFeeds (es ++ [.interruptDelivered m]) := by
  intro e he
  rcases List.mem_append.mp he with he | he
  · exact h e he
  · exact .inr ⟨m, by simpa using he⟩

theorem afterFetch_deliver (n : Nat) (d : δ) (s : Engine.State δ ι α ε σ) :
    afterFetch n d (deliver s) =
      { s with
        rf := { s.rf with pc := s.rf.pc + BitVec.ofNat 16 n, ie := false }
        pend := false
        dec := d
        histRev := (fedEvents s.mem s.rf.pc n).reverse ++ .interruptDelivered s.rf.im :: s.histRev } := rfl

theorem delivery_flags {s : Engine.State δ ι α ε σ} (h : deliveryDue s = true) : s.pend = true ∧ s.rf.ie = true := by
  simpa [deliveryDue] using h

theorem no_delivery_flags {s : Engine.State δ ι α ε σ} (h : deliveryDue s = false) :
    (s.pend && !s.rf.ie) = s.pend ∧ (s.rf.ie && !s.pend) = s.rf.ie := by
  simp only [deliveryDue] at h
  cases hp : s.pend <;> cases hi : s.rf.ie <;> simp_all

/-- The instruction of a step was chosen: `PC`, the flags a delivery clears, the decoder and the history have changed,
nothing else (R142–R149). -/
theorem acquire_ok {f : Feed δ ι α} {s t : Engine.State δ ι α ε σ} {i : ι} {a : α} (h : acquire f s = .ok (i, a, t)) :
    ∃ pc' es,
      t = { s with
            rf := { s.rf with pc := pc', ie := s.rf.ie && !s.pend }
            pend := s.pend && !s.rf.ie
            dec := t.dec
            histRev := es ++ s.histRev } ∧
      es ≠ [] ∧ OnlyFeeds es := by
  rcases acquire_cases f s with ⟨hd, ha⟩ | ⟨hd, hm, ha⟩ | ⟨-, -, -, ha⟩ | ⟨hd, -, -, ha⟩
  · obtain ⟨h1, h2⟩ := no_delivery_flags hd
    rcases fetch_cases f s with ⟨n, j, b, hn, -, hf⟩ | ⟨-, hf⟩
    · rw [ha, hf] at h
      obtain ⟨rfl, rfl, rfl⟩ := ok_inj h
      exact ⟨_, _, by rw [h1, h2]; rfl, fedEvents_ne_nil _ _ (by omega), fedEvents_onlyFeeds _ _ _⟩
    · rw [ha, hf] at h
      cases h
  · obtain ⟨h1, h2⟩ := delivery_flags hd
    rcases inject_deliver_cases f s with ⟨j, b, -, hj⟩ | ⟨-, hj⟩
    · rw [ha, hj] at h
      obtain ⟨rfl, rfl, rfl⟩ := ok_inj h
      refine ⟨s.rf.pc, [.fed 0x00 .injected, .fed 0x38 .injected, .fed 0xCD .injected, .interruptDelivered s.rf.im],
        by rw [h1, h2]; rfl, by simp, ?_⟩
      intro e he
      simp only [List.mem_cons, List.not_mem_nil, or_false] at he
      rcases he with rfl | rfl | rfl | rfl
      · exact .inl ⟨_, _, rfl⟩
      · exact .inl ⟨_, _, rfl⟩
      · exact .inl ⟨_, _, rfl⟩
      · exact .inr ⟨_, rfl⟩
    · rw [ha, hj] at h
      cases h
  · rw [ha] at h
    cases h
  · obtain ⟨h1, h2⟩ := delivery_flags hd
    rcases fetch_cases f (deliver s) with ⟨n, j, b, hn, -, hf⟩ | ⟨-, hf⟩
    · rw [ha, hf] at h
      obtain ⟨rfl, rfl, rfl⟩ := ok_inj h
      refine ⟨s.rf.pc + BitVec.ofNat 16 (n + 1), (fedEvents s.mem s.rf.pc (n + 1)).reverse ++ [.interruptDelivered s.rf.im],
        by rw [afterFetch_deliver, h1, h2]; simp, by simp, onlyFeeds_append_delivered (fedEvents_onlyFeeds _ _ _) _⟩
    · rw [ha, hf] at h
      cases h

/-- No instruction could be chosen: the state of R157 with the fault recorded; Memory and every register but `PC` and
the `IE` a delivery clears are as before (R147, R148, R150). -/
theorem acquire_error {f : Feed δ ι α} {s t : Engine.State δ ι α ε σ} (h : acquire f s = .error t) :
    ∃ pc' es e,
      t = { s with
            rf := { s.rf with pc := pc', ie := s.rf.ie && !s.pend }
            pend := s.pend && !s.rf.ie
            dec := t.dec
            fault := some e
            histRev := .fault e :: (es ++ s.histRev) } ∧
      OnlyFeeds es := by
  rcases acquire_cases f s with ⟨hd, ha⟩ | ⟨hd, hm, ha⟩ | ⟨hd, -, -, ha⟩ | ⟨hd, -, -, ha⟩
  · obtain ⟨h1, h2⟩ := no_delivery_flags hd
    rcases fetch_cases f s with ⟨n, j, b, hn, -, hf⟩ | ⟨-, hf⟩
    · rw [ha, hf] at h
      cases h
    · rw [ha, hf] at h
      obtain rfl := Except.error.inj h
      exact ⟨_, _, _, by rw [h1, h2]; rfl, fedEvents_onlyFeeds _ _ _⟩
  · obtain ⟨h1, h2⟩ := delivery_flags hd
    rcases inject_deliver_cases f s with ⟨j, b, -, hj⟩ | ⟨-, hj⟩
    · rw [ha, hj] at h
      cases h
    · rw [ha, hj] at h
      obtain rfl := Except.error.inj h
      refine ⟨s.rf.pc, [.fed 0x00 .injected, .fed 0x38 .injected, .fed 0xCD .injected, .interruptDelivered s.rf.im],
        .injectionIncomplete, by rw [h1, h2]; rfl, ?_⟩
      intro e he
      simp only [List.mem_cons, List.not_mem_nil, or_false] at he
      rcases he with rfl | rfl | rfl | rfl
      · exact .inl ⟨_, _, rfl⟩
      · exact .inl ⟨_, _, rfl⟩
      · exact .inl ⟨_, _, rfl⟩
      · exact .inr ⟨_, rfl⟩
  · obtain ⟨h1, h2⟩ := delivery_flags hd
    rw [ha] at h
    obtain rfl := Except.error.inj h
    refine ⟨s.rf.pc, [.interruptDelivered s.rf.im], _, by rw [h1, h2]; rfl, ?_⟩
    intro e he
    exact .inr ⟨_, by simpa using he⟩
  · obtain ⟨h1, h2⟩ := delivery_flags hd
    rcases fetch_cases f (deliver s) with ⟨n, j, b, hn, -, hf⟩ | ⟨-, hf⟩
    · rw [ha, hf] at h
      cases h
    · rw [ha, hf] at h
      obtain rfl := Except.error.inj h
      refine ⟨s.rf.pc + BitVec.ofNat 16 s.params.decodeBudget.val,
        (fedEvents s.mem s.rf.pc s.params.decodeBudget.val).reverse ++ [.interruptDelivered s.rf.im],
        .decodeFault s.rf.pc s.params.decodeBudget.val,
        by rw [afterFetch_deliver, h1, h2]; simp [raiseFault, emit],
        onlyFeeds_append_delivered (fedEvents_onlyFeeds _ _ _) _⟩

/-- The decoder stands at `dec_init` when the instruction of the step has been chosen, fetched or injected, for every
decoder that keeps its contract (R31, R102). -/
theorem acquire_ok_dec {f : Feed δ ι α} {init : δ} (hf : FeedContract init f) {s t : Engine.State δ ι α ε σ} {i : ι}
    {a : α} (h : acquire f s = .ok (i, a, t)) : t.dec = init := by
  have hfetch : ∀ s : Engine.State δ ι α ε σ, fetch f s = .ok (i, a, t) → t.dec = init := by
    intro s h
    rcases fetch_cases f s with ⟨n, j, b, -, hr, hf'⟩ | ⟨-, hf'⟩ <;> rw [hf'] at h
    · obtain ⟨rfl, rfl, rfl⟩ := ok_inj h
      exact feedAll_complete_dec hf hr
    · cases h
  rcases acquire_cases f s with ⟨-, ha⟩ | ⟨-, -, ha⟩ | ⟨-, -, -, ha⟩ | ⟨-, -, -, ha⟩ <;> rw [ha] at h
  · exact hfetch s h
  · rcases inject_deliver_cases f s with ⟨j, b, hr, hj⟩ | ⟨-, hj⟩ <;> rw [hj] at h
    · obtain ⟨rfl, rfl, rfl⟩ := ok_inj h
      exact hf _ 0x00 j b (Option.some.inj hr)
    · cases h
  · cases h
  · exact hfetch _ h

/-- TD's decoder state stays within its bound, whatever the choice of the instruction does (R200). -/
theorem acquire_bounded {s t : State} (hs : decBounded s.dec) :
    (∀ i a, acquire feed s = .ok (i, a, t) → decBounded t.dec) ∧ (acquire feed s = .error t → decBounded t.dec) := by
  rcases acquire_cases feed s with ⟨-, ha⟩ | ⟨-, -, ha⟩ | ⟨-, -, -, ha⟩ | ⟨-, -, -, ha⟩
  · rcases fetch_cases feed s with ⟨n, j, b, -, -, hf⟩ | ⟨-, hf⟩ <;> rw [ha, hf]
    · refine ⟨fun i a h => ?_, nofun⟩
      obtain ⟨-, -, rfl⟩ := ok_inj h
      exact feedAll_bounded _ hs
    · refine ⟨nofun, fun h => ?_⟩
      obtain rfl := Except.error.inj h
      exact feedAll_bounded _ hs
  · rcases inject_deliver_cases feed s with ⟨j, b, -, hj⟩ | ⟨-, hj⟩ <;> rw [ha, hj]
    · refine ⟨fun i a h => ?_, nofun⟩
      obtain ⟨-, -, rfl⟩ := ok_inj h
      exact feedAll_bounded _ hs
    · refine ⟨nofun, fun h => ?_⟩
      obtain rfl := Except.error.inj h
      exact feedAll_bounded _ hs
  · rw [ha]
    refine ⟨nofun, fun h => ?_⟩
    obtain rfl := Except.error.inj h
    exact hs
  · rcases fetch_cases feed (deliver s) with ⟨n, j, b, -, -, hf⟩ | ⟨-, hf⟩ <;> rw [ha, hf]
    · refine ⟨fun i a h => ?_, nofun⟩
      obtain ⟨-, -, rfl⟩ := ok_inj h
      exact feedAll_bounded _ hs
    · refine ⟨nofun, fun h => ?_⟩
      obtain rfl := Except.error.inj h
      exact feedAll_bounded _ hs

/-- What a step of an unfaulted engine is, whatever its decoder and the meaning of its instructions (R140). -/
theorem stepWith_cases (f : Feed δ ι α)
    (run : ι → α → Engine.State δ ι α ε σ → Host.Outcome (Engine.State δ ι α ε σ) Fault Refusal)
    {s : Engine.State δ ι α ε σ} (h : s.fault = none) :
    (∃ t, acquire f s = .error t ∧ stepWith f run s = .next t) ∨
    (∃ i a t, acquire f s = .ok (i, a, t) ∧ stepWith f run s = run i a t) := by
  simp only [stepWith, h]
  cases ha : acquire f s with
  | error t => exact .inl ⟨t, rfl, rfl⟩
  | ok r => exact .inr ⟨r.1, r.2.1, r.2.2, rfl, rfl⟩

/-- Every step of an unfaulted engine has a next state, with any decoder and any devices (R325). -/
theorem engineStep_next (D : Decoder δ ι α ε) (V : Devices σ) {s : Engine.State δ ι α ε σ} (h : s.fault = none) :
    ∃ t, engineStep D V s = .next t := by
  rcases stepWith_cases D.feed (runDecoded D V) h with ⟨t, -, hs⟩ | ⟨i, a, t, -, hs⟩
  · exact ⟨t, hs⟩
  · rcases runInstr_cases V i a (fun rf => D.readAddresses i rf a) (fun rf data => D.execute i rf data a) t with
      ⟨_, _, _, -, hr, -⟩ | ⟨u, _, _, _, _, _, _, _, hr, -⟩
    · exact ⟨_, hs.trans hr⟩
    · exact ⟨u, hs.trans hr⟩

/-- The check of R7 on a budget agrees, for TD, with what R7 asks of every decoder. -/
theorem testDecoder_budgetCovers (p : Params) : testDecoder.BudgetCovers p ↔ p.wellFormed = true := by
  rw [Params.wellFormed, decide_eq_true_iff]
  exact longestAtMost_feed _

/-- A step of an unfaulted machine, by its two parts (R140). -/
theorem step_cases {s : State} (h : s.fault = none) :
    (∃ t, acquire feed s = .error t ∧ step s = .next t) ∨
    (∃ i t, acquire feed s = .ok (i, i.args, t) ∧ step s = exec i t) := by
  rcases stepWith_cases feed (fun i _ => exec i) h with h | ⟨i, a, t, ha, hs⟩
  · exact .inl h
  · obtain rfl := acquire_args ha
    exact .inr ⟨i, t, ha, hs⟩

/-- The step of the machine is the engine's, with TD and the oracle (R10, R13, R140). -/
theorem step_eq_engineStep (s : State) : step s = engineStep testDecoder oracle s := by
  cases h : s.fault with
  | some e => simp only [step, engineStep, stepWith, h]
  | none =>
    rcases stepWith_cases testDecoder.feed (runDecoded testDecoder oracle) h with ⟨t, ha, hs⟩ | ⟨i, a, t, ha, hs⟩
    · rcases step_cases h with ⟨u, hu, hs'⟩ | ⟨_, _, hu, -⟩
      · obtain rfl := Except.error.inj (ha.symm.trans hu)
        exact hs'.trans hs.symm
      · cases ha.symm.trans hu
    · rcases step_cases h with ⟨u, hu, -⟩ | ⟨j, u, hu, hs'⟩
      · cases ha.symm.trans hu
      · obtain ⟨rfl, rfl, rfl⟩ := ok_inj (ha.symm.trans hu)
        exact hs'.trans ((exec_eq_runDecoded i t).trans hs.symm)

/-- A run does its first action, and goes on from there if that has a next state. -/
theorem actAll_cons (x : HostAction Oracle) (xs : List (HostAction Oracle)) (s : State) :
    actAll (x :: xs) s =
      match act x s with
      | .next t => actAll xs t
      | .fault r => .fault r
      | .refused r => .refused r := by
  simp only [actAll, actAllWith, act]
  cases actWith step x s <;> rfl

end Sys2Proof.Machine
end

