-- ==== Sys2Proof/Laws/Reframe.lean ====
section
/-! SUPPORT. The parts of the state the engine's phases never read: the latch (once the interrupt check is over), the
older history, and, but for port accesses, what the devices hold. Changing them before a phase is changing them after it. -/

namespace Sys2Proof.Machine
open Sys2Proof.Engine (Devices)

variable {δ ι α ε σ : Type}

/-- The state with its latch and what the devices hold changed, and an older history put before its own. -/
def reframe (p : Bool → Bool) (h : List (Event ι α)) (g : σ → σ) (s : Engine.State δ ι α ε σ) : Engine.State δ ι α ε σ :=
  { s with pend := p s.pend, histRev := s.histRev ++ h, dev := g s.dev }

/-- A change of the state carried through a phase that may fault. -/
def mapResult {S β : Type} (k : S → S) : Except S (β × S) → Except S (β × S)
  | .error t => .error (k t)
  | .ok (x, t) => .ok (x, k t)

/-- The same for the choice of the step's instruction, which also answers its arguments. -/
def mapAcquired {S : Type} (k : S → S) : Except S (ι × α × S) → Except S (ι × α × S)
  | .error t => .error (k t)
  | .ok (i, a, t) => .ok (i, a, k t)

/-- A change of the state carried through an outcome. -/
def mapNext {S : Type} (k : S → S) : Host.Outcome S Fault Refusal → Host.Outcome S Fault Refusal
  | .next t => .next (k t)
  | .fault r => .fault r
  | .refused r => .refused r

section
variable (p : Bool → Bool) (h : List (Event ι α)) (g : σ → σ)

theorem fetchLoop_reframe (f : Feed δ ι α) (e : FatalFault) (n : Nat) (s : Engine.State δ ι α ε σ) :
    fetchLoop f e n (reframe p h g s) = mapAcquired (reframe p h g) (fetchLoop f e n s) := by
  induction n generalizing s with
  | zero =>
    unfold fetchLoop
    simp only [reframe]
    cases (f s.dec (readByte s.mem s.rf.pc)).2 <;> rfl
  | succ n ih =>
    have hs : feedNormal f (reframe p h g s) = reframe p h g (feedNormal f s) := rfl
    unfold fetchLoop
    simp only [hs, ih]
    show (match (f s.dec (readByte s.mem s.rf.pc)).2 with
      | .complete i a => _
      | .incomplete => _) = _
    cases (f s.dec (readByte s.mem s.rf.pc)).2 <;> rfl

theorem fetch_reframe (f : Feed δ ι α) (s : Engine.State δ ι α ε σ) :
    fetch f (reframe p h g s) = mapAcquired (reframe p h g) (fetch f s) :=
  fetchLoop_reframe p h g f _ _ s

/-- A commit reads neither the latch nor the history, nor what the devices hold if their `write` goes through `g`. -/
theorem commit_reframe {V : Devices σ} (hg : ∀ o d q v, V.write (g o) d q v = g (V.write o d q v))
    (ws : List (Address × Byte)) (s : Engine.State δ ι α ε σ) :
    commit V ws (reframe p h g s) = reframe p h g (commit V ws s) := by
  induction ws generalizing s with
  | nil => rfl
  | cons w ws ih =>
    have hw : resolveWrite V w.1 w.2 (reframe p h g s) = reframe p h g (resolveWrite V w.1 w.2 s) := by
      simp only [resolveWrite, reframe]
      cases classify w.1 with
      | mem m => rfl
      | port q =>
        simp only
        cases deviceAt s.iomap q with
        | none => rfl
        | some d => simp only [hg]; rfl
    simp only [commit, hw, ih]

theorem resolveRead_reframe (V : Devices σ) (x : Address) (s : Engine.State δ ι α ε σ) :
    resolveRead V x (reframe p h id s) = mapResult (reframe p h id) (resolveRead V x s) := by
  simp only [resolveRead, reframe]
  cases classify x with
  | mem m => rfl
  | port q =>
    simp only
    cases deviceAt s.iomap q <;> rfl

theorem gather_reframe (V : Devices σ) (as : List Address) (s : Engine.State δ ι α ε σ) :
    gather V as (reframe p h id s) = mapResult (reframe p h id) (gather V as s) := by
  induction as generalizing s with
  | nil => rfl
  | cons x as ih =>
    simp only [gather, resolveRead_reframe]
    cases resolveRead V x s with
    | error t => rfl
    | ok r =>
      simp only [mapResult, ih]
      cases gather V as r.2 <;> rfl

/-- The end of a step reads neither the latch nor the older history, for every decoder and every devices. -/
theorem runInstr_reframe (V : Devices σ) (i : ι) (a : α) (reads : RegFile ε → List Address)
    (x : RegFile ε → List Byte → RegFile ε × List (Address × Byte)) (s : Engine.State δ ι α ε σ) :
    runInstr V i a reads x (reframe p h id s) = mapNext (reframe p h id) (runInstr V i a reads x s) := by
  have hg := gather_reframe p h V (reads s.rf) s
  have hs : (reframe p h id s).rf = s.rf := rfl
  simp only [runInstr, hs, hg]
  cases gather V (reads s.rf) s with
  | error t => rfl
  | ok r =>
    have hc := commit_reframe p h id (V := V) (fun _ _ _ _ => rfl) (x s.rf r.1).2 { r.2 with rf := (x s.rf r.1).1 }
    simp only [mapResult]
    exact congrArg (fun t => Host.Outcome.next (emit (.stepReturn i a) t)) hc

/-- The choice of the step's instruction reads neither the older history nor what the devices hold. -/
theorem acquire_reframe (f : Feed δ ι α) (s : Engine.State δ ι α ε σ) :
    acquire f (reframe id h g s) = mapAcquired (reframe id h g) (acquire f s) := by
  have hd : deliveryDue (reframe id h g s) = deliveryDue s := rfl
  have hdel : deliver (reframe id h g s) = reframe id h g (deliver s) := rfl
  simp only [acquire, hd, hdel, fetch_reframe]
  split_ifs
  · simp only [reframe, id]
    cases s.rf.im <;> cases s.params.imPolicy <;> first | rfl | skip
    all_goals
      show inject f (reframe id h g (deliver s)) = mapAcquired (reframe id h g) (inject f (deliver s))
      simp only [inject]
      show (match (f (feedInjected f 0x38 (feedInjected f 0xCD (deliver s))).dec 0x00).2 with
        | .complete i a => _
        | .incomplete => _) = _
      cases (f (feedInjected f 0x38 (feedInjected f 0xCD (deliver s))).dec 0x00).2 <;> rfl
  · rfl

end

/-- The meaning of an instruction reads neither the latch nor the older history. -/
theorem exec_reframe (p : Bool → Bool) (h : List (Event Instr (List Byte))) (i : Instr) (s : State) :
    exec i (reframe p h id s) = mapNext (reframe p h id) (exec i s) := by
  rw [exec_eq_runOffer, exec_eq_runOffer]
  exact runInstr_reframe p h oracle i i.args _ _ s

/-- An instruction that reads nothing does not read what the devices hold. -/
theorem noRead_reframe (p : Bool → Bool) (h : List (Event Instr (List Byte))) (g : Oracle → Oracle) (i : Instr)
    (x : RegFile Ext → RegFile Ext × List (Address × Byte)) (s : State) :
    runOffer i (noRead x) (reframe p h g s) = mapNext (reframe p h g) (runOffer i (noRead x) s) := by
  have hc := commit_reframe p h g (V := oracle) (fun _ _ _ _ => rfl) (x s.rf).2 { s with rf := (x s.rf).1 }
  simp only [runOffer, noRead, runInstr, gather]
  exact congrArg (fun t => Host.Outcome.next (emit (.stepReturn i i.args) t)) hc

end Sys2Proof.Machine
end

