-- ==== Sys2Proof/Tests/Slice0.lean ====
section
/-! SUPPORT. Small tests, with the expected results of spec/95_test_vectors.md and 43_instruction_set.md, and for every
obligation that has hypotheses a concrete state that meets them (witness_<the obligation>). Every theorem is about one
step or one operation. -/

namespace Sys2Proof.Tests
open Sys2Proof Sys2Proof.Machine

/-- The next state, where there is one. -/
def nextState {S φ ρ : Type} : Host.Outcome S φ ρ → Option S
  | .next t => some t
  | _ => none

/-- The reset machine with `PC`, `A`, `SP` as given and the bytes stored from `PC` on. -/
def at_ (pc : Word) (a : Byte) (sp : Word) (bytes : List Byte) : State :=
  { State.reset with
    rf := { pc := pc, ie := false, im := .mode0, ext := { a := a, sp := sp } }
    mem := writeBytes [] pc bytes }

/-- The same with an interrupt pending and enabled. -/
def due (m : InterruptMode) (s : State) : State := { s with pend := true, rf := { s.rf with ie := true, im := m } }

/-- The same with ports bound, and the answers their devices will give. -/
def wired (io : IoMap) (answers : List (DeviceId × Byte)) (s : State) : State :=
  { s with iomap := io, dev := { answers := answers, draws := 0 } }

/-- The same with another decode budget. -/
def budget (n : Nat) (h : 0 < n) (s : State) : State := { s with params := { s.params with decodeBudget := ⟨n, h⟩ } }

/-- One step, looked at. -/
def after {α : Type} (s : State) (look : State → α) : Option α := (nextState (step s)).map look

/-! ### Decoding: the words of R201, written out -/

theorem test_decode_nop : decode [0x00] = .ok (.nop, []) := by rfl
theorem test_decode_call : decode [0xCD, 0x38, 0x00] = .ok (.call 0x0038, []) := by rfl
theorem test_decode_ldAImm : decode [0x3E, 0x41] = .ok (.ldAImm 0x41, []) := by rfl
theorem test_decode_ldSpImm : decode [0x31, 0x34, 0x12] = .ok (.ldSpImm 0x1234, []) := by rfl
theorem test_decode_ldMemA : decode [0x32, 0x00, 0x90] = .ok (.ldMemA 0x9000, []) := by rfl
theorem test_decode_ldAMem : decode [0x3A, 0x01, 0x90] = .ok (.ldAMem 0x9001, []) := by rfl
theorem test_decode_jp : decode [0xC3, 0x06, 0x00] = .ok (.jp 0x0006, []) := by rfl
theorem test_decode_ret : decode [0xC9] = .ok (.ret, []) := by rfl
theorem test_decode_outPortA : decode [0xD3, 0x01] = .ok (.outPortA 0x01, []) := by rfl
theorem test_decode_inAPort : decode [0xDB, 0x02] = .ok (.inAPort 0x02, []) := by rfl
theorem test_decode_di : decode [0xF3] = .ok (.di, []) := by rfl
theorem test_decode_ei : decode [0xFB] = .ok (.ei, []) := by rfl
theorem test_decode_im0 : decode [0xED, 0x46] = .ok (.im0, []) := by rfl
theorem test_decode_im1 : decode [0xED, 0x56] = .ok (.im1, []) := by rfl
theorem test_decode_im2 : decode [0xED, 0x5E] = .ok (.im2, []) := by rfl
/-- R218: HALT and RST 38h are not in TD. -/
theorem test_decode_halt : decode [0x76, 0x00] = .error .unlisted := by rfl
theorem test_decode_rst : decode [0xFF] = .error .unlisted := by rfl
/-- The table's words: byte 0 in bits 7:0, but for the rows of format ED (log 14). -/
theorem test_table_call : decodeTableWord 24 0x1234CD = some (.call 0x1234) := by decide
theorem test_table_im1 : decodeTableWord 16 0xED56 = some .im1 := by decide
theorem test_disassemble : disassemble (.ldMemA 0x9000) = "LD (0x9000),A" := by decide

/-! ### WellFormed: each check refuses an ill-formed value -/

/-- VA6: port 256. -/
theorem test_wellFormed_ports : portsWellFormed [0, 255] = true ∧ portsWellFormed [256] = false := by decide
/-- VB4's budget of 2 is below TD's longest instruction. -/
theorem test_wellFormed_budget :
    State.reset.params.wellFormed = true ∧ (budget 2 (by decide) State.reset).params.wellFormed = false := by decide

/-! ### Address dispatch and setup (VA1–VA6, VS1–VS2) -/

theorem test_classify :
    classify 0xFFFF = .mem 0xFFFF ∧ classify 0x10000 = .port 0x00 ∧ classify 0x100FF = .port 0xFF ∧
    classify 0x10100 = .port 0x00 ∧ classify 0x12345 = .port 0x45 := by decide
/-- VA4: the last bind of a port wins. -/
theorem test_bind :
    (nextState (actAll [.bind [0, 1] 7, .bind [1] 8] State.reset)).map (fun t => t.iomap) = some [(0, 7), (1, 8)] := by
  decide
/-- R129: a device is attached to the ports it declares, and to no other; an undeclared device has none. -/
theorem test_attach :
    (nextState (actAll [.attach 7, .attach 9]
        { State.reset with params := { Config.defaultParams with claims := [(7, [1, 3])] } })).map (fun t => t.iomap) =
      some [(1, 7), (3, 7)] := by decide
/-- R13, R128: the devices of a run from creation have answers chosen by the launch, or later by the environment. -/
theorem test_devices_of_a_run :
    (nextState (actAll [.bind [2] 5, .load [(0x0000, 0xDB), (0x0001, 0x02), (0x0002, 0xDB), (0x0003, 0x02)], .step,
        .devices { answers := [(5, 0x42)], draws := 0 }, .step]
        (State.create { Launch.default with dev := { answers := [(5, 0x41)], draws := 0 } }))).map
      (fun t => (t.hist.filter (fun e => e = .portRead 2 5 0x41 ∨ e = .portRead 2 5 0x42), t.rf.ext.a)) =
      some ([.portRead 2 5 0x41, .portRead 2 5 0x42], 0x42) := by decide
/-- Another decoder and other devices (R10, R11, R13): two registers, one one-byte instruction that reads the port its
byte names, and a device that counts the calls made of it. -/
def otherDecoder : Engine.Decoder Unit Byte Unit (Byte × Byte) :=
  { decInit := ()
    feed := fun _ b => ((), .complete b ())
    readAddresses := fun b _ _ => [portAddress b]
    execute := fun _ rf data _ => ({ rf with ext := (data.headD 0, rf.ext.1) }, [(portAddress 0, 0x01)])
    disassemble := fun _ _ => ""
    contract := fun _ _ _ _ _ => rfl }
def counter : Engine.Devices Nat := { read := fun n _ _ => (BitVec.ofNat 8 n, n + 1), write := fun n _ _ _ => n + 1 }
theorem test_other_decoder :
    (nextState (engineStep otherDecoder counter
        { Engine.State.create () (ε := Byte × Byte) (σ := Nat) (ι := Byte) (α := Unit)
            { params := Config.defaultParams, resetIe := false, resetIm := .mode0, resetExt := (0xAA, 0xBB), dev := 4 } with
          iomap := [(0, 1)] })).map (fun t => (t.rf.ext, t.dev, t.rf.pc)) = some ((0x04, 0xAA), 6, 0x0001) := by decide
/-- R308: a decoder whose state moves on after every `Complete` is refused at the launch, and TD is not. -/
def decoderThatKeepsItsState : Engine.DecoderParts Nat Unit Unit Unit :=
  { decInit := 0
    feed := fun n _ => (n + 1, .complete () ())
    readAddresses := fun _ _ _ => []
    execute := fun _ rf _ _ => (rf, [])
    disassemble := fun _ _ => "" }
theorem decoderThatKeepsItsState_breaks : ¬ decoderThatKeepsItsState.Contract :=
  fun h => absurd (h 0 0x00 () () rfl) (by decide)
theorem test_launch_refused [Decidable decoderThatKeepsItsState.Contract] (l : Engine.Launch Unit Unit)
    [Decidable (decoderThatKeepsItsState.BudgetCovers l.params)] :
    launch decoderThatKeepsItsState l = .error .decoderNotReset := by
  simp [launch, decoderThatKeepsItsState_breaks]
theorem covers_default : testDecoder.BudgetCovers Launch.default.params := (testDecoder_budgetCovers _).mpr rfl
theorem test_launch_of_td [Decidable testDecoder.Contract] [Decidable (testDecoder.BudgetCovers Launch.default.params)] :
    launch testDecoder.toDecoderParts Launch.default = .ok (testDecoder, State.reset) := by
  rw [launch, dif_pos testDecoder.contract, if_pos covers_default]; rfl
/-- R7: for TD a budget of 2 is too small, for a decoder of one-byte instructions a budget of 1 is not. -/
def smallBudget (n : Nat) (h : 0 < n) : Params := { Config.defaultParams with decodeBudget := ⟨n, h⟩ }
theorem smallBudget_misses_td : ¬ testDecoder.BudgetCovers (smallBudget 2 Nat.two_pos) :=
  fun h => absurd ((testDecoder_budgetCovers _).mp h) (by decide)
theorem smallBudget_covers_other : otherDecoder.BudgetCovers (smallBudget 1 (by decide)) := fun bytes h => by
  match bytes, h with
  | [_], _ => exact Nat.le_refl 1
theorem test_launch_budget [Decidable testDecoder.Contract]
    [Decidable (testDecoder.BudgetCovers (smallBudget 2 Nat.two_pos))] :
    launch testDecoder.toDecoderParts { Launch.default with params := smallBudget 2 Nat.two_pos } =
      .error .budgetTooSmall := by
  rw [launch, dif_pos testDecoder.contract, if_neg smallBudget_misses_td]
/-- VA5: no bind after a step. -/
theorem test_bind_after_step :
    (match actAll [.step, .bind [2] 7] State.reset with | .refused r => some r | _ => none) = some .bindAfterStart := by
  decide
/-- VS2a: one write and one read of a bound port. -/
theorem test_port_calls :
    (match resolveRead oracle 0x1002A (resolveWrite oracle 0x1002A 0x07 (wired [(0x2A, 5)] [(5, 0x99)] State.reset)) with
      | .ok (v, t) => some (v, t.hist)
      | .error _ => none) = some (0x99, [.portWrite 0x2A 5 0x07, .portRead 0x2A 5 0x99]) := by decide
/-- VD1, VD2: a port listed twice is read twice; the unbound port ends the gather. -/
theorem test_gather_twice :
    (match gather oracle [0x10000, 0x10000] (wired [(0, 5)] [(5, 0x10), (5, 0x20)] State.reset) with
      | .ok (data, _) => some data
      | .error _ => none) = some [0x10, 0x20] := by decide
theorem test_gather_fault :
    (match gather oracle [0x10000, 0x10001, 0x10000] (wired [(0, 5)] [(5, 0x10), (5, 0x20)] State.reset) with
      | .ok _ => none
      | .error t => some (t.dev.answers, t.fault)) = some ([(5, 0x20)], some (.unboundPortRead 0x01 0x10001)) := by decide
/-- VD3, VD4: the later entry wins; an unbound port is reported and the commit goes on. -/
theorem test_commit :
    (readByte (commit oracle [(0x4000, 0x01), (0x4000, 0x02)] State.reset).mem 0x4000,
      (commit oracle [(0x10005, 0x7F), (0x2000, 0x01)] State.reset).hist,
      readByte (commit oracle [(0x10005, 0x7F), (0x2000, 0x01)] State.reset).mem 0x2000) =
    (0x02, [.unboundPortWrite 0x05 0x7F], 0x01) := by decide

/-! ### Fetch and the budget (VB1–VB6, VS3a) -/

theorem test_fetch_wraps :
    after (at_ 0xFFFE 0 0 [0x31, 0x00, 0x80]) (fun t => (t.rf.pc, t.rf.ext.sp)) = some (0x0001, 0x8000) := by decide
/-- VB3, VB6: an unlisted byte. -/
theorem test_decode_fault :
    after (at_ 0x0000 0 0 [0xFF, 0xFF, 0xFF, 0xFF]) (fun t => (t.fault, t.rf.pc, t.dec, (traceResult t).isNone)) =
      some (some (.decodeFault 0x0000 4), 0x0004, .junk, true) := by decide
/-- VB4: a budget of 2. -/
theorem test_budget_fault :
    after (budget 2 (by decide) (at_ 0x0000 0 0 [0x31, 0x00, 0x80])) (fun t => (t.fault, t.rf.pc, t.rf.ext.sp)) =
      some (some (.decodeFault 0x0000 2), 0x0002, 0x0000) := by decide
/-- R141: no step after a fault. -/
theorem test_no_step_after_fault :
    (match step { State.reset with fault := some .injectionIncomplete } with
      | .fault r => some r
      | _ => none) = some (.machineFaulted .injectionIncomplete) := by decide

/-! ### Interrupts (VC1–VC10) -/

theorem test_delivery_mode1 :
    after (due .mode1 (at_ 0x1234 0 0x8000 [0x00]))
        (fun t => (t.rf.ie, t.pend, readByte t.mem 0x7FFF, readByte t.mem 0x7FFE, t.rf.ext.sp, t.rf.pc)) =
      some (false, false, 0x12, 0x34, 0x7FFE, 0x0038) := by decide
theorem test_delivery_wraps :
    after (due .mode1 (at_ 0x1234 0 0x0001 [0x00]))
        (fun t => (readByte t.mem 0x0000, readByte t.mem 0xFFFF, t.rf.ext.sp)) = some (0x12, 0x34, 0xFFFF) := by decide
theorem test_delivery_reject :
    after (due .mode0 (at_ 0x1234 0 0x8000 [0x00])) (fun t => (t.fault, t.rf.ie, t.pend, t.rf.pc)) =
      some (some (.unsupportedInterruptMode .mode0), false, false, 0x1234) := by decide
theorem test_delivery_noOp :
    after { due .mode2 (at_ 0x1234 0 0x8000 [0x00]) with
        params := { Config.defaultParams with imPolicy := .noOp } }
      (fun t => (t.rf.ie, t.pend, t.rf.pc, t.rf.ext.sp)) = some (false, false, 0x1235, 0x8000) := by decide
/-- VC8: a decoder in which CD starts a four-byte instruction. -/
def fourByteCall : Feed DecState Instr (List Byte)
  | .accum [0xCD, 0x38], b => (.accum [0xCD, 0x38, b], .incomplete)
  | d, b => feed d b

theorem test_injection_incomplete :
    (nextState (stepWith fourByteCall (fun i _ => exec i) (due .mode1 (at_ 0x1234 0 0x8000 [0x00])))).map
        (fun t => (t.fault, t.rf.ie, t.pend, t.rf.pc)) =
      some (some .injectionIncomplete, false, false, 0x1234) := by decide
/-- VC2: not enabled. -/
theorem test_not_enabled :
    after { at_ 0x1234 0 0x8000 [0x00] with pend := true } (fun t => (t.rf.pc, t.pend)) = some (0x1235, true) := by
  decide

/-! ### One step of each instruction (VT1–VT20) -/

theorem test_nop : after (at_ 0x0100 0 0x8000 [0x00]) (fun t => (t.rf.pc, t.mem)) = some (0x0101, []) := by decide
theorem test_call :
    after (at_ 0x0100 0 0x8000 [0xCD, 0x00, 0x20])
        (fun t => (readByte t.mem 0x7FFF, readByte t.mem 0x7FFE, t.rf.ext.sp, t.rf.pc)) =
      some (0x01, 0x03, 0x7FFE, 0x2000) := by decide
theorem test_call_wraps :
    after (at_ 0x0100 0 0x0001 [0xCD, 0x00, 0x20])
        (fun t => (readByte t.mem 0x0000, readByte t.mem 0xFFFF, t.rf.ext.sp)) = some (0x01, 0x03, 0xFFFF) := by decide
theorem test_ldAImm :
    after (at_ 0x0100 0 0x8000 [0x3E, 0xFF]) (fun t => (t.rf.ext.a, t.rf.pc)) = some (0xFF, 0x0102) := by decide
theorem test_ldSpImm :
    after (at_ 0x0100 0 0x8000 [0x31, 0x34, 0x12]) (fun t => (t.rf.ext.sp, t.rf.pc)) = some (0x1234, 0x0103) := by decide
theorem test_ldMemA :
    after (at_ 0x0100 0xC9 0x8000 [0x32, 0x01, 0x01]) (fun t => (readByte t.mem 0x0101, t.rf.pc)) =
      some (0xC9, 0x0103) := by decide
theorem test_ldAMem :
    after { at_ 0x0100 0 0x8000 [0x3A, 0x00, 0x90] with mem := writeBytes [] 0x0100 [0x3A, 0x00, 0x90] ++ [(0x9000, 0x66)] }
        (fun t => (t.rf.ext.a, t.rf.pc)) = some (0x66, 0x0103) := by decide
theorem test_jp : after (at_ 0x0100 0 0x8000 [0xC3, 0x00, 0x01]) (fun t => t.rf.pc) = some 0x0100 := by decide
theorem test_ret_wraps :
    after { at_ 0x0100 0 0xFFFF [] with mem := [(0x0000, 0x12), (0x0100, 0xC9), (0xFFFF, 0x34)] }
        (fun t => (t.rf.pc, t.rf.ext.sp)) = some (0x1234, 0x0001) := by decide
theorem test_out_bound :
    after (wired [(1, 5)] [] (at_ 0x0100 0x41 0x8000 [0xD3, 0x01])) (fun t => t.histRev.take 2) =
      some [.stepReturn (.outPortA 1) [0x01], .portWrite 0x01 5 0x41] := by decide
theorem test_out_unbound :
    after (at_ 0x0100 0x41 0x8000 [0xD3, 0x01]) (fun t => (t.histRev[1]?, t.fault, t.rf.pc)) =
      some (some (.unboundPortWrite 0x01 0x41), none, 0x0102) := by decide
theorem test_in_bound :
    after (wired [(2, 5)] [(5, 0x5C)] (at_ 0x0100 0 0x8000 [0xDB, 0x02])) (fun t => (t.rf.ext.a, t.rf.pc)) =
      some (0x5C, 0x0102) := by decide
theorem test_in_unbound :
    after (at_ 0x0100 0 0x8000 [0xDB, 0x02]) (fun t => (t.fault, t.rf.ext.a, t.rf.pc)) =
      some (some (.unboundPortRead 0x02 0x10002), 0x00, 0x0102) := by decide
theorem test_di :
    after { at_ 0x0100 0 0x8000 [0xF3] with rf := { pc := 0x0100, ie := true, im := .mode0, ext := ⟨0, 0⟩ } }
        (fun t => t.rf.ie) = some false := by decide
theorem test_ei :
    after { at_ 0x0100 0 0x8000 [0xFB] with pend := true } (fun t => (t.rf.ie, t.pend)) = some (true, true) := by decide
theorem test_im0 :
    after { at_ 0x0100 0 0x8000 [0xED, 0x46] with rf := { pc := 0x0100, ie := false, im := .mode2, ext := ⟨0, 0⟩ } }
        (fun t => (t.rf.im, t.rf.pc)) = some (.mode0, 0x0102) := by decide
theorem test_im1 : after (at_ 0x0100 0 0x8000 [0xED, 0x56]) (fun t => t.rf.im) = some .mode1 := by decide
theorem test_im2 : after (at_ 0x0100 0 0x8000 [0xED, 0x5E]) (fun t => t.rf.im) = some .mode2 := by decide

/-! ### The codes of R300 and the placing of a table word -/

theorem test_fault_codes :
    [FatalFault.decodeFault 0 4, .unboundPortRead 0 0x10000, .unsupportedInterruptMode .mode0, .injectionIncomplete].map
        FatalFault.code = [1, 2, 3, 4] ∧ unboundPortWriteCode = 16 := by decide
/-- The instruction whose table word is placed is the one the next step returns. -/
theorem test_withFetchWord :
    after (State.reset.withFetchWord 16 0xED5E) traceResult = some (some (.im2, [])) ∧
    after ((due .mode1 State.reset).withFetchWord 24 0x1234C3) traceResult =
      some (some (.jp 0x1234, [0x34, 0x12])) := by decide

/-! ### Witnesses: states and operands that meet the hypotheses of the statements -/

theorem witness_DecodeDeterminesBytes : decode [0xC9, 0x01] = .ok (.ret, [0x01]) := by rfl
/-- One list for each length. -/
theorem witness_LengthFromByteZero :
    decode [0xFB] = .ok (.ei, []) ∧ decode [0xED, 0x46, 0x07] = .ok (.im0, [0x07]) ∧
    decode [0x3A, 0xFF, 0xFF] = .ok (.ldAMem 0xFFFF, []) := ⟨rfl, rfl, rfl⟩
/-- The premises of FeedResetsOnComplete; every `Decoder` meets the contract, TD among them. -/
theorem witness_FeedResetsOnComplete :
    (feed (.accum [0x31, 0x00]) 0x80).2 = .complete (.ldSpImm 0x8000) [0x00, 0x80] ∧
    (match fetch feed State.reset with | .ok (i, _, t) => some (i, t.dec) | .error _ => none) = some (.nop, decInit) ∧
    after State.reset (fun t => (t.fault, t.dec)) = some (none, decInit) := by decide
theorem witness_UnlistedBytesGoToJunk :
    (0x76 : Byte) ∉ ([0x00, 0xCD, 0x3E, 0x31, 0x32, 0x3A, 0xC3, 0xC9, 0xD3, 0xDB, 0xF3, 0xFB, 0xED] : List Byte) ∧
    (0x00 : Byte) ∉ ([0x46, 0x56, 0x5E] : List Byte) := by decide
theorem witness_MemoryWriteThenRead :
    (0x0000 : Word) ≠ 0xFFFF ∧
    ∀ w ∈ ([(0x10005, 0x7F), (0x2000, 0x01)] : List (Address × Byte)), w.1 ≠ (0xFFFF : Word).toNat := by decide
theorem witness_WritesKeepCanonicalMemory :
    Memory.wf [(0x0000, 0x01), (0xFFFF, 0x02)] ∧ Memory.wf (writeBytes [] 0xFFFF [0x02, 0x01]) := by decide
/-- An alias of port 0 (VA1), with an answer waiting and without one. -/
theorem witness_BoundPortReadCallsDeviceOnce :
    0x10000 ≤ 0x10100 ∧ deviceAt (wired [(0, 5)] [(5, 0x41)] State.reset).iomap (BitVec.ofNat 8 0x10100) = some 5 ∧
    takeAnswer 5 [(4, 0x40), (5, 0x41)] = some (0x41, [(4, 0x40)]) ∧ takeAnswer 5 [(4, 0x40)] = none := by decide
theorem witness_UnboundPortReadIsFatal :
    0x10000 ≤ 0x100FF ∧ deviceAt State.reset.iomap (BitVec.ofNat 8 0x100FF) = none := by decide
theorem witness_BoundPortWriteCallsDeviceOnce :
    0x10000 ≤ 0x100FF ∧ deviceAt (wired [(255, 5)] [] State.reset).iomap (BitVec.ofNat 8 0x100FF) = some 5 := by decide
theorem witness_UnboundPortWriteIsReported :
    0x10000 ≤ 0x1FFFF ∧ deviceAt State.reset.iomap (BitVec.ofNat 8 0x1FFFF) = none := by decide
theorem witness_BindLastWins : State.reset.histRev = [] ∧ ∀ p ∈ ([0, 255] : List Nat), p < 256 := by decide
theorem witness_SetupIsRefusedAfterAStep :
    after State.reset (fun t => t.histRev.isEmpty) = some false ∧
    (nextState (actAll [.step, .raise] State.reset)).map (fun t => t.histRev.isEmpty) = some false ∧
    State.reset.histRev = [] ∧ ∃ p ∈ ([0, 256] : List Nat), 256 ≤ p := by
  decide
/-- A read that succeeds and one that faults, a gather of each kind, and an instruction's read list of each kind. -/
theorem witness_OperandGatherInOrder :
    (∃ t, resolveRead oracle 0xFFFF State.reset = .ok (0x00, t)) ∧
    (∃ t, resolveRead oracle 0x10000 State.reset = .error t) ∧
    (∃ t, gather oracle [0xFFFF] State.reset = .ok ([0x00], t)) ∧
    (∃ t, gather oracle [0x10000, 0xFFFF] State.reset = .error t) ∧
    (∃ t, gather oracle (testDecoder.readAddresses (.inAPort 0x07) State.reset.rf [0x07]) State.reset = .error t) ∧
    (∃ t, gather oracle (testDecoder.readAddresses (.ldAMem 0x0007) State.reset.rf [0x07, 0x00]) State.reset =
      .ok ([0x00], t)) :=
  ⟨⟨_, rfl⟩, ⟨_, rfl⟩, ⟨_, rfl⟩, ⟨_, rfl⟩, ⟨_, rfl⟩, ⟨_, rfl⟩⟩
/-- The first byte completes; the last byte of the budget completes. -/
theorem witness_FetchFeedsUntilComplete :
    (feedAll feed State.reset.dec (readBytes State.reset.mem State.reset.rf.pc 1)).2 = [.complete .nop []] ∧
    (let s := budget 3 (by decide) (at_ 0xFFFE 0 0 [0x31, 0x00, 0x80]);
      s.fault = none ∧ ¬(s.pend = true ∧ s.rf.ie = true) ∧ 2 < s.params.decodeBudget.val ∧
      (feedAll feed s.dec (readBytes s.mem s.rf.pc 3)).2 =
        List.replicate 2 .incomplete ++ [.complete (.ldSpImm 0x8000) [0x00, 0x80]]) := by decide
/-- The default budget, and the least one. -/
theorem witness_DecodeBudgetExceededFaults :
    (let s := at_ 0x0000 0 0 [0xFF];
      (feedAll feed s.dec (readBytes s.mem s.rf.pc 4)).2 = List.replicate 4 .incomplete ∧ s.fault = none ∧
      ¬(s.pend = true ∧ s.rf.ie = true) ∧ s.params.decodeBudget.val = 4) ∧
    (let s := budget 1 (by decide) (at_ 0x0000 0 0 [0xED, 0x46]);
      (feedAll feed s.dec (readBytes s.mem s.rf.pc 1)).2 = List.replicate 1 .incomplete ∧ s.fault = none ∧
      s.params.decodeBudget.val = 1) := by decide
/-- Its clause on R7, at the smallest budget that covers TD. -/
theorem witness_DecodeBudgetExceededFaults_covered :
    let s := { at_ 0xFFFE 0 0 [0xC3, 0x10, 0xC3] with params := smallBudget 3 (by decide) }
    s.fault = none ∧ s.dec = testDecoder.decInit ∧ ¬(s.pend = true ∧ s.rf.ie = true) ∧
      testDecoder.BudgetCovers s.params ∧
      completesAtEnd testDecoder.feed testDecoder.decInit (readBytes s.mem s.rf.pc 3) = true :=
  ⟨rfl, rfl, by decide, (testDecoder_budgetCovers _).mpr rfl, by decide⟩
/-- With an interrupt pending and not enabled, and the instruction just within the budget. -/
theorem witness_StepRunsDecodedInstruction :
    let s := { budget 3 (by decide) (at_ 0xFFFF 0 0 [0xC3, 0x10, 0xC3]) with pend := true }
    AtBoundary s ∧ ¬(s.pend = true ∧ s.rf.ie = true) ∧ (encode (.jp 0xC310)).length ≤ s.params.decodeBudget.val ∧
    decode (readBytes s.mem s.rf.pc longestInstr) = .ok (.jp 0xC310, []) := ⟨⟨rfl, rfl⟩, by decide, by decide, rfl⟩
/-- Unlisted bytes, and an instruction longer than the budget. -/
theorem witness_UndecodableBytesFault :
    (let s := at_ 0x0000 0 0 [0x76];
      AtBoundary s ∧ decode (readBytes s.mem s.rf.pc s.params.decodeBudget.val) = .error .unlisted) ∧
    (let s := budget 2 (by decide) (at_ 0x0000 0 0 [0x31, 0x00, 0x80]);
      AtBoundary s ∧ decode (readBytes s.mem s.rf.pc s.params.decodeBudget.val) = .error .truncated) :=
  ⟨⟨⟨rfl, rfl⟩, rfl⟩, ⟨rfl, rfl⟩, rfl⟩
theorem witness_FaultedMachineHasNoStep :
    { State.reset with fault := some FatalFault.injectionIncomplete }.fault = some .injectionIncomplete := rfl
theorem witness_UnfaultedMachineAlwaysSteps : State.reset.fault = none := rfl
/-- A step that does not fault, and one that does. -/
theorem witness_OneInstructionPerStep :
    after State.reset (fun t => t.fault) = some none ∧
    after (at_ 0x0000 0 0 [0xDB, 0x07]) (fun t => t.fault) = some (some (.unboundPortRead 0x07 0x10007)) := by decide
/-- A fault in the gather, and one in a delivery. -/
theorem witness_FaultingStepWritesNothing :
    after (at_ 0x0000 0 0 [0xDB, 0x07]) (fun t => t.fault.isSome) = some true ∧
    after (due .mode2 State.reset) (fun t => t.fault.isSome) = some true := by decide
/-- The instruction leaves IE 0 (NOP), and sets it (EI). -/
theorem witness_DisabledInterruptStaysPending :
    after { State.reset with pend := false } (fun t => t.rf.ie) = some false ∧
    after { at_ 0x0000 0 0 [0xFB] with pend := false } (fun t => (t.fault, t.rf.ie)) = some (none, true) := by decide
/-- Mode 1, a rejected mode, and a mode passed over. -/
theorem witness_DeliveryClearsEnableAndPending :
    after (due .mode1 State.reset) (fun t => t.fault.isSome) = some false ∧
    after (due .mode0 State.reset) (fun t => t.fault.isSome) = some true ∧
    after { due .mode2 State.reset with params := { Config.defaultParams with imPolicy := .noOp } }
      (fun t => t.rf.pc) = some 0x0001 := by decide
theorem witness_ModeOneDeliveryCalls0038 :
    AtBoundary (due .mode1 State.reset) ∧ (due .mode1 State.reset).pend = true ∧
    (due .mode1 State.reset).rf.ie = true ∧ (due .mode1 State.reset).rf.im = .mode1 := ⟨⟨rfl, rfl⟩, rfl, rfl, rfl⟩
/-- The third feed completes under TD, and does not under the decoder of VC8. -/
theorem witness_InjectionUsesThirdResult :
    (due .mode1 State.reset).fault = none ∧
    (feedAll feed (due .mode1 State.reset).dec [0xCD, 0x38, 0x00]).2[2]? = some (.complete (.call 0x0038) [0x38, 0x00]) ∧
    (feedAll fourByteCall (due .mode1 State.reset).dec [0xCD, 0x38, 0x00]).2[2]? = some .incomplete := by decide
theorem witness_UnsupportedModeDelivery :
    (due .mode2 State.reset).fault = none ∧ (due .mode2 State.reset).rf.im ≠ .mode1 ∧
    (due .mode2 State.reset).params.imPolicy = .reject ∧
    { due .mode2 State.reset with params := { Config.defaultParams with imPolicy := .noOp } }.params.imPolicy =
      .noOp := by decide
theorem witness_InterruptLatch :
    (nextState (step State.reset)).isSome = true ∧ (nextState (act (.load [(0x0000, 0x76)]) State.reset)).isSome = true ∧
    (nextState (act (.bind [0] 5) State.reset)).isSome = true ∧ HostAction.bind (σ := Oracle) [0] 5 ≠ .step ∧
    HostAction.bind (σ := Oracle) [0] 5 ≠ .raise := by decide
theorem witness_NoDelayAfterEi :
    let s := { at_ 0xFFFF 0 0 [0xFB] with
      pend := true, rf := { pc := 0xFFFF, ie := false, im := .mode1, ext := ⟨0, 0⟩ } }
    AtBoundary s ∧ s.pend = true ∧ s.rf.ie = false ∧ s.rf.im = .mode1 ∧ readByte s.mem s.rf.pc = 0xFB :=
  ⟨⟨rfl, rfl⟩, rfl, rfl, rfl, rfl⟩
theorem witness_SetupNeverChanges : (nextState (step (wired [(0, 5)] [] State.reset))).isSome = true := by decide
/-- A store, and a push, each changing a byte. -/
theorem witness_MemoryChangesOnlyByStores :
    after (at_ 0x0000 0x41 0 [0x32, 0xFF, 0xFF]) (fun t => readByte t.mem 0xFFFF) = some 0x41 ∧
    after (at_ 0x00FD 0 0 [0xCD, 0x00, 0x20]) (fun t => readByte t.mem 0xFFFF) = some 0x01 := by decide
/-- IM 1 from mode 0; EI from 0; DI from 1, and a delivery from 1. -/
theorem witness_InterruptControlHasFewWriters :
    after (at_ 0x0000 0 0 [0xED, 0x56]) (fun t => t.rf.im) = some .mode1 ∧
    after (at_ 0x0000 0 0 [0xFB]) (fun t => t.rf.ie) = some true ∧
    after { due .mode0 (at_ 0x0000 0 0 [0xF3]) with pend := false } (fun t => t.rf.ie) = some false ∧
    after (due .mode1 State.reset) (fun t => t.rf.ie) = some false := by decide
/-- The invariant holds of a state that steps. -/
theorem witness_StepKeepsInvariant : Inv State.reset ∧ (nextState (step State.reset)).isSome = true :=
  ⟨⟨by decide, by decide, fun _ => rfl, Nat.zero_le 2, .inl rfl, fun _ _ => List.not_mem_nil, fun _ => rfl⟩, by decide⟩
theorem witness_SetupAndRaiseKeepInvariant :
    HostAction.raise (σ := Oracle) ≠ .step ∧ (nextState (act .raise State.reset)).isSome = true ∧
    (nextState (act (.load [(0xFFFF, 0x01)]) State.reset)).isSome = true ∧
    (nextState (act (.bind [255] 5) State.reset)).isSome = true := by decide
/-- A run that faults and one that does not. -/
theorem witness_FaultStatusMatchesHistory :
    (nextState (actAll [.load [(0x0000, 0x76)], .step] (State.create Launch.default))).map (fun t => t.fault.isSome) =
      some true ∧
    (nextState (actAll [.raise, .step] (State.create Launch.default))).map (fun t => t.fault.isSome) =
      some false := by decide
theorem witness_GoodRunExecutesOneInstructionPerStep :
    ∃ t, GoodRun [.bind [0] 5, .step, .raise, .step] (State.create Launch.default) t := ⟨_, rfl, rfl⟩
theorem witness_StepNeverReadsHistory : (due .mode1 State.reset).fault = none := rfl
theorem witness_DeviceAnswersReachOnlyA :
    (nextState (step (wired [(2, 5)] [(5, 0x5C)] (at_ 0x0100 0 0x8000 [0xDB, 0x02])))).isSome = true := by decide
theorem witness_LoadWritesTheImage : State.reset.histRev = [] := rfl
theorem witness_CreationValues :
    (testDecoder.Contract ∧ testDecoder.BudgetCovers Launch.default.params) ∧ ¬ decoderThatKeepsItsState.Contract ∧
    ¬ testDecoder.BudgetCovers (smallBudget 2 Nat.two_pos) :=
  ⟨⟨testDecoder.contract, covers_default⟩, decoderThatKeepsItsState_breaks, smallBudget_misses_td⟩
theorem witness_OutWritesPort :
    deviceAt (wired [(255, 5)] [] State.reset).iomap 0xFF = some 5 ∧ deviceAt State.reset.iomap 0xFF = none := by decide
theorem witness_InReadsBoundPort :
    deviceAt (wired [(255, 5)] [(5, 0x41)] State.reset).iomap 0xFF = some 5 ∧
    takeAnswer 5 (wired [(255, 5)] [(5, 0x41)] State.reset).dev.answers = some (0x41, []) ∧
    takeAnswer 5 (wired [(255, 5)] [] State.reset).dev.answers = none := by decide
theorem witness_InFromUnboundPortIsFatal : deviceAt State.reset.iomap 0x00 = none := rfl

end Sys2Proof.Tests
end

/-! PROOF. The loader (00_scope.md R12, 10_state.md R47): what a cell reads after an image is written, and when a load is
accepted. -/

namespace Sys2Proof.Machine

variable {δ ι α ε σ : Type}

/-- The last entry of an image for an address decides what the address reads as: each write is overwritten by the ones
after it, so the folds over Memory and over the one byte go in step. -/
theorem readByte_foldl_writeByte (image : List (Word × Byte)) (m : Memory) (a : Word) :
    readByte (image.foldl (fun m c => writeByte m c.1 c.2) m) a =
      image.foldl (fun b c => if c.1 = a then c.2 else b) (readByte m a) := by
  induction image generalizing m with
  | nil => rfl
  | cons c image ih =>
    have hc : readByte (writeByte m c.1 c.2) a = if c.1 = a then c.2 else readByte m a := by
      simp only [readByte_writeByte, eq_comm]
    rw [List.foldl_cons, List.foldl_cons, ih, hc]

/-- A load before the first step is accepted, and writes Memory alone. -/
theorem loadImage_of_histRev_eq_nil (image : List (Word × Byte)) {s : Engine.State δ ι α ε σ} (h : s.histRev = []) :
    loadImage image s = .next { s with mem := image.foldl (fun m c => writeByte m c.1 c.2) s.mem } := by
  simp [loadImage, started, h]

/-- Settles O46: a load writes Memory alone, and a cell's byte follows the image entry by entry. -/
theorem loadWritesTheImage : Obligations.LoadWritesTheImage := by
  intro δ ι α ε σ image s h
  exact ⟨_, loadImage_of_histRev_eq_nil image h, rfl, readByte_foldl_writeByte image s.mem⟩

end Sys2Proof.Machine

/-! PROOF. The state of the machine (10_state.md): how a step and a setup action can change it, the machine invariant
along every run, who writes the interrupt control, and what a step does not read. -/

namespace Sys2Proof.Machine
open Sys2Proof.Engine (Devices)

variable {δ ι α ε σ : Type}

/-! ### Events that are no fault -/

/-- None of the events is a `Fault` event; of a whole history, this is the right side of `Inv.faults`. -/
def NoFault (es : List (Event ι α)) : Prop := ∀ f, Event.fault f ∉ es

theorem OnlyFeeds.noFault {es : List (Event ι α)} (h : OnlyFeeds es) : NoFault es := by
  intro f hf
  rcases h _ hf with ⟨_, _, he⟩ | ⟨_, he⟩ <;> cases he

theorem OnlyReads.noFault {es : List (Event ι α)} (h : OnlyReads es) : NoFault es := by
  intro f hf
  obtain ⟨_, _, _, he⟩ := h _ hf
  cases he

theorem NoFault.append {es es' : List (Event ι α)} (h : NoFault es) (h' : NoFault es') : NoFault (es ++ es') :=
  fun f hf => (List.mem_append.mp hf).elim (h f) (h' f)

theorem NoFault.stepReturn_cons {es : List (Event ι α)} (h : NoFault es) (i : ι) (a : α) :
    NoFault (.stepReturn i a :: es) :=
  fun f hf => (List.mem_cons.mp hf).elim nofun (h f)

/-! ### How a step ends -/

/-- Only an unfaulted machine has a next step (R36, 42_engine_step.md R141). -/
theorem fault_eq_none_of_step {s t : State} (h : step s = .next t) : s.fault = none := by
  cases hf : s.fault with
  | none => rfl
  | some e => simp [step, stepWith, hf] at h

/-- A step that could choose no instruction ends there (42_engine_step.md R157). -/
theorem step_of_acquire_error {s t : State} (hf : s.fault = none) (ha : acquire feed s = .error t) :
    step s = .next t := by
  rcases step_cases hf with ⟨u, hu, hs⟩ | ⟨i, u, hu, -⟩
  · obtain rfl := Except.error.inj (ha.symm.trans hu)
    exact hs
  · cases ha.symm.trans hu

/-- A step that has chosen its instruction is that instruction's meaning from there (42_engine_step.md R140). -/
theorem step_of_acquire_ok {s t : State} {i : Instr} {a : List Byte} (hf : s.fault = none)
    (ha : acquire feed s = .ok (i, a, t)) : step s = exec i t := by
  rcases step_cases hf with ⟨u, hu, -⟩ | ⟨j, u, hu, hs⟩
  · cases ha.symm.trans hu
  · obtain ⟨rfl, -, rfl⟩ := ok_inj (ha.symm.trans hu)
    exact hs

/-- The two ends of an instruction's meaning: its `execute` gives the register file and it returns; or a fatal fault is
raised in its operand gather (42_engine_step.md R151–R157). -/
theorem exec_next_cases {i : Instr} {s t : State} (h : exec i s = .next t) :
    (∃ data mem dev es,
      t = { s with
            rf := ((offer i).execute s.rf data).1
            mem := mem
            dev := dev
            histRev := .stepReturn i i.args :: (es ++ s.histRev) } ∧
      (Memory.wf s.mem → Memory.wf mem) ∧ NoFault es) ∨
    (∃ f dev es,
      t = { s with dev := dev, fault := some f, histRev := .fault f :: (es ++ s.histRev) } ∧ NoFault es) := by
  rw [exec_eq_runOffer, runOffer] at h
  rcases runInstr_cases oracle i i.args (offer i).reads (offer i).execute s with
    ⟨data, _, es, -, hr, he⟩ | ⟨u, _, _, -, -, -, es, he, hr, hu⟩
  · obtain rfl := Host.Outcome.next.inj (hr.symm.trans h)
    exact .inl ⟨data, _, _, es, rfl, commit_wf oracle _, fun f hf => (he _ hf).2 f rfl⟩
  · obtain rfl := Host.Outcome.next.inj (hr.symm.trans h)
    exact .inr ⟨_, _, es, hu, he.noFault⟩

/-- Everything a step with a next state can do (42_engine_step.md R140–R157): an instruction completes, with the decoder
back at `dec_init` and `StepReturn` as the newest event; or a fatal fault is raised, with its event the newest, and Memory
and every register but `PC` and the `IE` a delivery clears are as before. -/
theorem step_next_cases {s t : State} (h : step s = .next t) :
    (∃ i pc data mem dev es,
      t = { s with
            rf := ((offer i).execute { s.rf with pc := pc, ie := s.rf.ie && !s.pend } data).1
            pend := s.pend && !s.rf.ie
            dec := decInit
            mem := mem
            dev := dev
            histRev := .stepReturn i i.args :: (es ++ s.histRev) } ∧
      (Memory.wf s.mem → Memory.wf mem) ∧ NoFault es) ∨
    (∃ f pc dec dev es,
      t = { s with
            rf := { s.rf with pc := pc, ie := s.rf.ie && !s.pend }
            pend := s.pend && !s.rf.ie
            dec := dec
            dev := dev
            fault := some f
            histRev := .fault f :: (es ++ s.histRev) } ∧
      (decBounded s.dec → decBounded dec) ∧ NoFault es) := by
  rcases step_cases (fault_eq_none_of_step h) with ⟨u, ha, hs⟩ | ⟨i, u, ha, hs⟩
  · obtain rfl := Host.Outcome.next.inj (hs.symm.trans h)
    obtain ⟨pc, es, f, hu, he⟩ := acquire_error ha
    exact .inr ⟨f, pc, u.dec, s.dev, es, hu, fun hb => (acquire_bounded hb).2 ha, he.noFault⟩
  · obtain ⟨pc, es, hu, -, he⟩ := acquire_ok ha
    rw [acquire_ok_dec feed_contract ha] at hu
    subst hu
    rcases exec_next_cases (hs.symm.trans h) with ⟨data, mem, dev, es', rfl, hm, he'⟩ | ⟨f, dev, es', rfl, he'⟩
    · exact .inl ⟨i, pc, data, mem, dev, es' ++ es, by rw [List.append_assoc], hm, he'.append he.noFault⟩
    · exact .inr ⟨f, pc, decInit, dev, es' ++ es, by rw [List.append_assoc], fun _ => Nat.zero_le 2,
        he'.append he.noFault⟩

/-- What a step does, however it ends, to the parts that no instruction writes: the latch loses what a delivery takes,
and the I/O Map and the launch parameters stay (R30, R35). -/
theorem step_next_frame {s t : State} (h : step s = .next t) :
    t.pend = (s.pend && !s.rf.ie) ∧ t.iomap = s.iomap ∧ t.params = s.params := by
  rcases step_next_cases h with ⟨_, _, _, _, _, _, rfl, -⟩ | ⟨_, _, _, _, _, rfl, -⟩ <;> exact ⟨rfl, rfl, rfl⟩

/-! ### What the other actions do -/

/-- Every action but a step writes at most Memory, the I/O Map, the latch and what the devices hold; only a raise writes
the latch, and both canonical forms are kept (10_state.md R30, 70_reset_and_hazards.md R403). -/
theorem act_setup_frame {x : HostAction Oracle} {s t : State} (hx : x ≠ .step) (h : act x s = .next t) :
    t = { s with mem := t.mem, iomap := t.iomap, pend := t.pend, dev := t.dev } ∧
    (x ≠ .raise → t.pend = s.pend) ∧
    (Memory.wf s.mem → Memory.wf t.mem) ∧ (IoMap.wf s.iomap → IoMap.wf t.iomap) := by
  have hbind : ∀ ports d, bindDevice ports d s = .next t →
      portsWellFormed ports = true ∧ t = { s with iomap := bindPorts ports d s.iomap } := by
    intro ports d h
    simp only [bindDevice] at h
    split_ifs at h with _ hp
    exact ⟨hp, (Host.Outcome.next.inj h).symm⟩
  cases x with
  | load image =>
    simp only [act, actWith, loadImage] at h
    split_ifs at h
    obtain rfl := Host.Outcome.next.inj h
    exact ⟨rfl, fun _ => rfl, foldl_writeByte_wf image, id⟩
  | bind ports d =>
    obtain ⟨hp, rfl⟩ := hbind ports d h
    exact ⟨rfl, fun _ => rfl, id, bindPorts_wf hp d⟩
  | attach d =>
    obtain ⟨hp, rfl⟩ := hbind (claimedPorts s.params d) d h
    exact ⟨rfl, fun _ => rfl, id, bindPorts_wf hp d⟩
  | raise =>
    obtain rfl := Host.Outcome.next.inj h
    exact ⟨rfl, fun hr => absurd rfl hr, id, id⟩
  | devices dev =>
    obtain rfl := Host.Outcome.next.inj h
    exact ⟨rfl, fun _ => rfl, id, id⟩
  | step => exact absurd rfl hx

/-! ### The machine invariant -/

/-- Settles O38: the two ends of `step_next_cases` each meet every field of the invariant. -/
theorem stepKeepsInvariant : Obligations.StepKeepsInvariant := by
  intro s t hs h
  have hf := fault_eq_none_of_step h
  have hold : NoFault s.histRev := hs.faults.mp hf
  rcases step_next_cases h with ⟨i, _, _, _, _, es, rfl, hm, he⟩ | ⟨f, _, _, _, es, rfl, hd, -⟩
  · exact {
      memory := hm hs.memory
      ports := hs.ports
      boundary := fun _ => rfl
      decoder := Nat.zero_le 2
      lastEvent := by simp [EndsWithItsStep, hf]
      faults := iff_of_true hf ((he.append hold).stepReturn_cons i i.args) }
  · exact {
      memory := hs.memory
      ports := hs.ports
      boundary := nofun
      decoder := hd hs.decoder
      lastEvent := rfl
      faults := iff_of_false nofun fun hno => hno f List.mem_cons_self }

/-- Every machine that has just been created meets the invariant (R45–R48). -/
theorem inv_create (l : Launch) : Inv (State.create l) where
  memory := ⟨List.Pairwise.nil, nofun⟩
  ports := ⟨List.Pairwise.nil, nofun⟩
  boundary := fun _ => rfl
  decoder := Nat.zero_le 2
  lastEvent := .inl rfl
  faults := iff_of_true rfl nofun

/-- Settles O39: `State.reset` is itself a creation. -/
theorem invariantAtCreation : Obligations.InvariantAtCreation := ⟨inv_create, inv_create Launch.default⟩

/-- Setup, a raise and the devices' own moves keep the invariant, of which they reach only the two canonical forms. -/
theorem inv_act_setup {x : HostAction Oracle} {s t : State} (hx : x ≠ .step) (hs : Inv s) (h : act x s = .next t) :
    Inv t := by
  obtain ⟨ht, -, hm, hio⟩ := act_setup_frame hx h
  rw [ht]
  exact { hs with memory := hm hs.memory, ports := hio hs.ports }

/-- What every action keeps holds at the end of every run that has it at the start. -/
theorem actAll_induction {P : State → Prop} (hP : ∀ x s t, P s → act x s = .next t → P t)
    {xs : List (HostAction Oracle)} {s t : State} (hs : P s) (h : actAll xs s = .next t) : P t := by
  induction xs generalizing s with
  | nil =>
    obtain rfl := Host.Outcome.next.inj h
    exact hs
  | cons x xs ih =>
    rw [actAll_cons] at h
    cases hx : act x s with
    | next u =>
      rw [hx] at h
      exact ih (hP x s u hs hx) h
    | fault r => simp [hx] at h
    | refused r => simp [hx] at h

/-- The invariant holds at the end of every run from creation. -/
theorem inv_actAll_create {l : Launch} {xs : List (HostAction Oracle)} {t : State}
    (h : actAll xs (State.create l) = .next t) : Inv t := by
  refine actAll_induction (fun x s t hs hx => ?_) (inv_create l) h
  by_cases hstep : x = .step
  · subst hstep
    exact stepKeepsInvariant s t hs hx
  · exact inv_act_setup hstep hs hx

/-- Settles O41: the relation is a field of the invariant, which holds along every run. -/
theorem faultStatusMatchesHistory : Obligations.FaultStatusMatchesHistory := by
  intro l xs t h
  simpa only [Engine.State.hist, List.mem_reverse] using (inv_actAll_create h).faults

/-! ### The latch, the setup and the creation -/

/-- Settles O33: by the frame of a raise, of a step and of the other actions. -/
theorem interruptLatch : Obligations.InterruptLatch := by
  refine ⟨fun _ _ _ _ _ _ => ⟨rfl, rfl⟩, fun s t h => ?_, fun x s t hx hr h => ?_⟩
  · obtain ⟨hpend, -, -⟩ := step_next_frame h
    exact hpend
  · obtain ⟨-, hpend, -, -⟩ := act_setup_frame hx h
    exact hpend hr

/-- Settles O35, by the frame of a step. -/
theorem setupNeverChanges : Obligations.SetupNeverChanges := fun _ _ h => (step_next_frame h).2

/-- Settles O45: creation field by field, and the three answers of `launch`. -/
theorem creationValues : Obligations.CreationValues := by
  refine ⟨?_, ?_, rfl, rfl, rfl, rfl, rfl⟩
  · rintro δ ι α ε σ init l s rfl
    exact ⟨rfl, rfl, rfl, rfl, fun _ => rfl, fun _ => rfl, rfl, rfl, rfl⟩
  · intro δ ι α ε σ P _ l _
    refine ⟨fun hc hb => ⟨{ P with contract := hc }, ?_, rfl⟩, fun hc hb => ?_, fun hc => ?_⟩
    · rw [launch, dif_pos hc, if_pos hb]
    · rw [launch, dif_pos hc, if_neg hb]
    · rw [launch, dif_neg hc]

/-! ### Who writes the interrupt control -/

/-- What an instruction's `execute` makes of `IE` and `IM`: the five instructions that write one of them write only that
one, and every other instruction leaves both (43_instruction_set.md R202–R216). -/
theorem execute_interruptControl (i : Instr) (rf : RegFile Ext) (data : List Byte) :
    (((offer i).execute rf data).1.ie = rf.ie ∧ ((offer i).execute rf data).1.im = rf.im) ∨
    (∃ b, i = (if b then .ei else .di) ∧ ((offer i).execute rf data).1 = rf.setIe b) ∨
    (∃ m, (i = .im0 ∧ m = .mode0 ∨ i = .im1 ∧ m = .mode1 ∨ i = .im2 ∧ m = .mode2) ∧
      ((offer i).execute rf data).1 = rf.setIm m) := by
  cases i with
  | di => exact .inr (.inl ⟨false, rfl, rfl⟩)
  | ei => exact .inr (.inl ⟨true, rfl, rfl⟩)
  | im0 => exact .inr (.inr ⟨.mode0, .inl ⟨rfl, rfl⟩, rfl⟩)
  | im1 => exact .inr (.inr ⟨.mode1, .inr (.inl ⟨rfl, rfl⟩), rfl⟩)
  | im2 => exact .inr (.inr ⟨.mode2, .inr (.inr ⟨rfl, rfl⟩), rfl⟩)
  | ldAMem nn =>
    simp only [offer, ldAMemOffer, readOne]
    split <;> exact .inl ⟨rfl, rfl⟩
  | inAPort n =>
    simp only [offer, inAPortOffer, readOne]
    split <;> exact .inl ⟨rfl, rfl⟩
  | ret =>
    simp only [offer, retOffer, pop]
    split <;> exact .inl ⟨rfl, rfl⟩
  | _ => exact .inl ⟨rfl, rfl⟩

/-- What a step makes of `IE` and `IM`: at most a delivery clears `IE`; or EI or DI writes `IE`; or an instruction of `IM`
writes its mode (42_engine_step.md R145, 43_instruction_set.md R212–R216). -/
theorem step_interruptControl {s t : State} (h : step s = .next t) :
    (t.rf.ie = (s.rf.ie && !s.pend) ∧ t.rf.im = s.rf.im) ∨
    (∃ b, t.histRev.head? = some (.stepReturn (if b then .ei else .di) []) ∧ t.rf.ie = b ∧ t.rf.im = s.rf.im) ∨
    (∃ i, t.histRev.head? = some (.stepReturn i []) ∧ t.rf.ie = (s.rf.ie && !s.pend) ∧
      (i = .im0 ∧ t.rf.im = .mode0 ∨ i = .im1 ∧ t.rf.im = .mode1 ∨ i = .im2 ∧ t.rf.im = .mode2)) := by
  rcases step_next_cases h with ⟨i, pc, data, _, _, es, rfl, -⟩ | ⟨_, _, _, _, _, rfl, -⟩
  · rcases execute_interruptControl i { s.rf with pc := pc, ie := s.rf.ie && !s.pend } data with
      hkeep | ⟨b, rfl, hrf⟩ | ⟨m, hi, hrf⟩
    · exact .inl hkeep
    · refine .inr (.inl ⟨b, ?_, congrArg RegFile.ie hrf, (congrArg RegFile.im hrf).trans (setIe_im b _)⟩)
      cases b <;> rfl
    · refine .inr (.inr ⟨i, ?_, congrArg RegFile.ie hrf, ?_⟩)
      · rcases hi with ⟨rfl, -⟩ | ⟨rfl, -⟩ | ⟨rfl, -⟩ <;> rfl
      · simpa only [hrf, setIm_im] using hi
  · exact .inl ⟨rfl, rfl⟩

/-- Settles O37, from the three ways of `step_interruptControl`. -/
theorem interruptControlHasFewWriters : Obligations.InterruptControlHasFewWriters := by
  intro s t h
  rcases step_interruptControl h with ⟨hie, him⟩ | ⟨b, hlast, hie, him⟩ | ⟨i, hlast, hie, hi⟩
  · refine ⟨fun hne => absurd him hne, fun h0 h1 => ?_, fun h1 h0 => .inl ?_⟩
    · simp [hie, h0] at h1
    · simpa [hie, h1] using h0
  · refine ⟨fun hne => absurd him hne, fun _ h1 => ?_, fun _ h0 => .inr ?_⟩
    · simpa [← hie, h1] using hlast
    · simpa [← hie, h0] using hlast
  · refine ⟨fun _ => ⟨i, hlast, hi⟩, fun h0 h1 => ?_, fun h1 h0 => .inl ?_⟩
    · simp [hie, h0] at h1
    · simpa [hie, h1] using h0

/-! ### What a step does not read -/

/-- A step of an unfaulted machine always has a next state (60_exceptions.md R325). -/
theorem step_next {s : State} (h : s.fault = none) : ∃ t, step s = .next t := by
  rw [step_eq_engineStep]
  exact engineStep_next testDecoder oracle h

/-- A step reads nothing of the older history. -/
theorem step_reframe (h : List (Event Instr (List Byte))) (s : State) :
    step (reframe id h id s) = mapNext (reframe id h id) (step s) := by
  have hf : (reframe id h id s).fault = s.fault := rfl
  have ha : acquire testDecoder.feed (reframe id h id s) =
      mapAcquired (reframe id h id) (acquire testDecoder.feed s) := acquire_reframe h id _ s
  simp only [step, stepWith, hf, ha]
  cases s.fault with
  | some e => rfl
  | none =>
    cases acquire testDecoder.feed s with
    | error t => rfl
    | ok r => exact exec_reframe id h r.1 r.2.2

/-- Settles O43: the step with any history is the step with the empty one, reframed; the events it appends there are the
ones it appends everywhere. -/
theorem stepNeverReadsHistory : Obligations.StepNeverReadsHistory := by
  intro s h hf
  obtain ⟨t, ht⟩ := step_next (s := { s with histRev := [] }) hf
  have hstep (h : List (Event Instr (List Byte))) :
      step { s with histRev := h } = .next { t with histRev := t.histRev ++ h } :=
    (step_reframe h { s with histRev := [] }).trans (congrArg (mapNext (reframe id h id)) ht)
  exact ⟨t, t.histRev, hstep s.histRev, hstep h⟩

/-- A gather of memory cells reads their bytes and changes nothing (41_address_dispatch.md R122). -/
theorem gather_mem (V : Devices σ) {as : List Address} (h : ∀ a ∈ as, a < 0x10000) (s : Engine.State δ ι α ε σ) :
    gather V as s = .ok (as.map fun a => readByte s.mem (BitVec.ofNat 16 a), s) := by
  induction as with
  | nil => rfl
  | cons a as ih =>
    obtain ⟨ha, has⟩ := List.forall_mem_cons.mp h
    simp only [gather, resolveRead, classify_mem ha, ih has, List.map_cons]

/-- With nothing put before its history and its latch left, a reframed state is the state with other devices. -/
theorem reframe_dev (o : σ) (s : Engine.State δ ι α ε σ) : reframe id [] (fun _ => o) s = { s with dev := o } := by
  simp [reframe]

/-- An instruction that reads Memory alone does not read what the devices hold, nor the latch nor the older history. -/
theorem runOffer_reframe_of_mem (p : Bool → Bool) (h : List (Event Instr (List Byte))) (g : Oracle → Oracle) (i : Instr)
    {o : Offer} {s : State} (hm : ∀ a ∈ o.reads s.rf, a < 0x10000) :
    runOffer i o (reframe p h g s) = mapNext (reframe p h g) (runOffer i o s) := by
  have hg := gather_mem oracle hm (reframe p h g s)
  have hrf : (reframe p h g s).rf = s.rf := rfl
  simp only [runOffer, runInstr, hrf, hg, gather_mem oracle hm s]
  exact congrArg (fun t => Host.Outcome.next (emit (.stepReturn i i.args) t))
    (commit_reframe p h g (fun _ _ _ _ => rfl) _ { s with rf := (o.execute s.rf _).1 })

/-- Only IN A,(n) reads outside Memory (43_instruction_set.md R202–R216). -/
theorem offer_reads_mem {i : Instr} (hi : ∀ n, i ≠ .inAPort n) (rf : RegFile Ext) :
    ∀ a ∈ (offer i).reads rf, a < 0x10000 := by
  cases i with
  | inAPort n => exact absurd rfl (hi n)
  | ldAMem nn => exact List.forall_mem_singleton.mpr nn.isLt
  | ret => exact List.forall_mem_cons.mpr ⟨BitVec.isLt _, List.forall_mem_singleton.mpr (BitVec.isLt _)⟩
  | _ => exact nofun

/-- The two states differ at most in `A`, in the history and in what the devices hold. -/
def AgreeButForA (t u : State) : Prop :=
  u = { t with
        rf := { t.rf with ext := { t.rf.ext with a := u.rf.ext.a } }
        histRev := u.histRev
        dev := u.dev }

/-- With other devices, an instruction that has a next state has one that agrees with it but for `A`: only IN from a bound
port hears an answer, and it writes the byte to `A` (43_instruction_set.md R211). -/
theorem exec_agreeButForA {i : Instr} {s t : State} (o : Oracle) (h : exec i s = .next t) :
    ∃ u, exec i { s with dev := o } = .next u ∧ AgreeButForA t u := by
  by_cases hi : ∃ n, i = .inAPort n
  · obtain ⟨n, rfl⟩ := hi
    rw [exec_inAPort] at h ⊢
    cases hd : deviceAt s.iomap n with
    | none =>
      rw [runOffer_readOne_unbound _ _ (classify_portAddress n) hd] at h
      obtain rfl := Host.Outcome.next.inj h
      exact ⟨_, runOffer_readOne_unbound _ _ (classify_portAddress n) hd, rfl⟩
    | some d =>
      rw [runOffer_readOne_bound _ _ (classify_portAddress n) hd] at h
      obtain rfl := Host.Outcome.next.inj h
      exact ⟨_, runOffer_readOne_bound _ _ (classify_portAddress n) hd, rfl⟩
  · have hm := offer_reads_mem (not_exists.mp hi) s.rf
    have hr := runOffer_reframe_of_mem id [] (fun _ => o) i hm
    rw [← exec_eq_runOffer, ← exec_eq_runOffer, reframe_dev, h] at hr
    exact ⟨{ t with dev := o }, hr.trans (congrArg Host.Outcome.next (reframe_dev o t)), rfl⟩

/-- Settles O44: the choice of the instruction does not read what the devices hold, and its meaning lets their answers
reach no register but `A`. -/
theorem deviceAnswersReachOnlyA : Obligations.DeviceAnswersReachOnlyA := by
  intro s t o h
  have hf := fault_eq_none_of_step h
  have hdev := acquire_reframe [] (fun _ => o) feed s
  rw [reframe_dev] at hdev
  rcases step_cases hf with ⟨u, ha, hs⟩ | ⟨i, u, ha, hs⟩ <;>
    simp only [ha, mapAcquired, reframe_dev] at hdev
  · obtain rfl := Host.Outcome.next.inj (hs.symm.trans h)
    exact ⟨_, step_of_acquire_error hf hdev, rfl⟩
  · rw [step_of_acquire_ok (s := { s with dev := o }) hf hdev]
    exact exec_agreeButForA o (hs.symm.trans h)

end Sys2Proof.Machine

/-! PROOF. Memory (20_memory.md): a write and what is read after it, the canonical form as equality of all cells, and the
byte order of a 16-bit immediate. -/

namespace Sys2Proof.Machine
open Sys2Proof.Engine (Devices)

variable {δ ι α ε σ β : Type}

/-! ### A write to a memory address -/

/-- A read of a memory address reads its cell and changes nothing (41_address_dispatch.md R122). -/
theorem resolveRead_mem (V : Devices σ) (m : Word) (s : Engine.State δ ι α ε σ) :
    resolveRead V m.toNat s = .ok (readByte s.mem m, s) := by
  have hc : classify m.toNat = .mem m := classify_memAddress m
  simp only [resolveRead, hc]

/-- A write to a memory address writes its cell and has no other effect (R57, 41_address_dispatch.md R125). -/
theorem resolveWrite_mem (V : Devices σ) (m : Word) (v : Byte) (s : Engine.State δ ι α ε σ) :
    resolveWrite V m.toNat v s = { s with mem := writeByte s.mem m v } := by
  have hc : classify m.toNat = .mem m := classify_memAddress m
  simp only [resolveWrite, hc]

/-- A write list that does not name a cell leaves it (R68). -/
theorem lastWritten_of_forall_ne {a : Word} {ws : List (Address × Byte)} (h : ∀ w ∈ ws, w.1 ≠ a.toNat) (old : Byte) :
    lastWritten a old ws = old := by
  induction ws with
  | nil => rfl
  | cons w ws ih =>
    obtain ⟨hw, hws⟩ := List.forall_mem_cons.mp h
    simp only [lastWritten, List.foldl_cons, if_neg hw]
    exact ih hws

/-- Settles O10: the write is `writeByte` on Memory alone, and a later write list that does not name the cell leaves it. -/
theorem memoryWriteThenRead : Obligations.MemoryWriteThenRead := by
  intro δ ι α ε σ V m v s
  rw [resolveWrite_mem]
  refine ⟨readByte_writeByte_self s.mem m v, fun b hb => readByte_writeByte_ne s.mem v hb, rfl, fun ws hws => ?_⟩
  rw [resolveRead_mem, readByte_commit, lastWritten_of_forall_ne hws, readByte_writeByte_self]

/-! ### The canonical form -/

/-- With rising keys no earlier entry hides a later one, so the entries are what the lookups find. -/
theorem lookup_eq_some_iff_mem {l : List (Nat × β)} (h : AssocSorted l) {k : Nat} {v : β} :
    l.lookup k = some v ↔ (k, v) ∈ l := by
  rw [List.lookup_eq_some_iff]
  constructor
  · rintro ⟨l₁, l₂, rfl, -⟩
    exact List.mem_append_right l₁ List.mem_cons_self
  · intro hm
    obtain ⟨l₁, l₂, rfl⟩ := List.append_of_mem hm
    obtain ⟨-, -, hlt⟩ := List.pairwise_append.mp h
    exact ⟨l₁, l₂, rfl, fun e he => bne_iff_ne.mpr (hlt e he _ List.mem_cons_self).ne'⟩

/-- Lists with rising keys are equal when they have the same entries. -/
theorem assocSorted_ext {l l' : List (Nat × β)} (h : AssocSorted l) (h' : AssocSorted l')
    (hmem : ∀ e, e ∈ l ↔ e ∈ l') : l = l' := by
  have : Std.Irrefl fun x y : Nat × β => x.1 < y.1 := ⟨fun x => lt_irrefl x.1⟩
  have : Std.Antisymm fun x y : Nat × β => x.1 < y.1 := ⟨fun _ _ hxy hyx => absurd hyx hxy.asymm⟩
  exact h.eq_of_mem_iff h' hmem

/-- A byte that is not what an unlisted address reads as is read only where it is listed. -/
theorem readByte_eq_iff_lookup (m : Memory) (a : Word) {v : Byte} (hv : v ≠ Memory.unlisted) :
    readByte m a = v ↔ m.lookup a.toNat = some v := by
  unfold readByte
  cases m.lookup a.toNat with
  | none => simpa using hv.symm
  | some w => simp

/-- The entries of a canonical Memory are the cells that do not read as unlisted ones do: what is listed follows from
what is read. -/
theorem mem_iff_readByte {m : Memory} (h : Memory.wf m) (c : Nat × Byte) :
    c ∈ m ↔ c.2 ≠ Memory.unlisted ∧ ∃ a : Word, a.toNat = c.1 ∧ readByte m a = c.2 := by
  obtain ⟨hsorted, hcells⟩ := h
  constructor
  · intro hc
    obtain ⟨hlt, hne⟩ := hcells c hc
    have ha : (BitVec.ofNat 16 c.1).toNat = c.1 := Nat.mod_eq_of_lt hlt
    refine ⟨hne, BitVec.ofNat 16 c.1, ha, ?_⟩
    rw [readByte_eq_iff_lookup m _ hne, ha]
    exact (lookup_eq_some_iff_mem hsorted).mpr hc
  · rintro ⟨hne, a, ha, hread⟩
    rw [readByte_eq_iff_lookup m a hne, ha] at hread
    exact (lookup_eq_some_iff_mem hsorted).mp hread

/-- Canonical memories that read alike at every address are the same list. -/
theorem memory_ext {m n : Memory} (hm : Memory.wf m) (hn : Memory.wf n) (h : ∀ a : Word, readByte m a = readByte n a) :
    m = n :=
  assocSorted_ext hm.1 hn.1 fun c => by simp only [mem_iff_readByte hm, mem_iff_readByte hn, h]

/-- Settles O11: a write keeps the canonical form, and a canonical Memory is determined by what it reads. -/
theorem writesKeepCanonicalMemory : Obligations.WritesKeepCanonicalMemory :=
  ⟨fun _ a v h => writeByte_wf h a v, fun _ _ => memory_ext⟩

/-! ### The byte order of an immediate -/

/-- Settles O5, by the laws of `leWord`. -/
theorem immediateLowByteFirst : Obligations.ImmediateLowByteFirst :=
  fun lo hi => ⟨leWord_toNat lo hi, loByte_leWord lo hi, hiByte_leWord lo hi⟩

end Sys2Proof.Machine

/-! PROOF. The encoding (30_encoding.md): what a list of bytes that decodes begins with, the length of an instruction, and
the bytes that lead to junk. -/

namespace Sys2Proof.Machine

/-! ### A list of bytes that decodes -/

/-- A lookup finds an entry of the list. -/
theorem mem_of_lookup_eq_some {β : Type} {l : List (Byte × β)} {k : Byte} {v : β} (h : l.lookup k = some v) :
    (k, v) ∈ l := by
  obtain ⟨l₁, l₂, rfl, -⟩ := List.lookup_eq_some_iff.mp h
  exact List.mem_append_right l₁ List.mem_cons_self

/-- The encoder writes the rows of format B1 as the decoder lists them (43_instruction_set.md R201). -/
theorem encode_of_mem_rowsB1 : ∀ row ∈ rowsB1, encode row.2 = [row.1] := by decide

/-- Likewise format ED, after the byte 0xED. -/
theorem encode_of_mem_rowsED : ∀ row ∈ rowsED, encode row.2 = [edPrefix, row.1] := by decide

/-- Likewise format B2n, with every operand. -/
theorem encode_of_mem_rowsB2n (x : Byte) : ∀ row ∈ rowsB2n, encode (row.2 x) = [row.1, x] := by
  simp [rowsB2n, encode]

/-- Likewise format B3nn, its operand the low byte first. -/
theorem encode_of_mem_rowsB3nn (lo hi : Byte) : ∀ row ∈ rowsB3nn, encode (row.2 (leWord lo hi)) = [row.1, lo, hi] := by
  simp [rowsB3nn, encode]

/-- A whole encoding of TD is the encoding of the instruction it is read as, format by format. -/
theorem encode_of_wholeEncoding {t : List Byte} {i : Instr} (h : wholeEncoding t = some i) : encode i = t := by
  match t with
  | [op] => exact encode_of_mem_rowsB1 _ (mem_of_lookup_eq_some h)
  | [op, x] =>
    simp only [wholeEncoding] at h
    split_ifs at h with hed
    · rw [hed]
      exact encode_of_mem_rowsED _ (mem_of_lookup_eq_some h)
    · obtain ⟨mk, hmk, rfl⟩ := Option.map_eq_some_iff.mp h
      exact encode_of_mem_rowsB2n x _ (mem_of_lookup_eq_some hmk)
  | [op, lo, hi] =>
    obtain ⟨mk, hmk, rfl⟩ := Option.map_eq_some_iff.mp h
    exact encode_of_mem_rowsB3nn lo hi _ (mem_of_lookup_eq_some hmk)

/-- What decodes from a partly fed decoder completes a whole encoding with the bytes already held, and the bytes after it
are left (43_instruction_set.md R217). -/
theorem decodeFrom_accum_ok {s bytes rest : List Byte} {i : Instr}
    (h : decodeFrom (.accum s) bytes = .ok (i, rest)) :
    ∃ t, bytes = t ++ rest ∧ wholeEncoding (s ++ t) = some i := by
  induction bytes generalizing s with
  | nil => cases h
  | cons b bs ih =>
    rw [decodeFrom] at h
    cases hr : (feed (.accum s) b).2 with
    | complete j a =>
      obtain ⟨-, s', hs, hw, -⟩ := feed_complete_cases hr
      obtain rfl := DecState.accum.inj hs
      simp only [hr, Except.ok.injEq, Prod.mk.injEq] at h
      obtain ⟨rfl, rfl⟩ := h
      exact ⟨[b], rfl, hw⟩
    | incomplete =>
      rw [hr] at h
      rcases feed_incomplete_cases hr with hj | ⟨s', hs, hd, -⟩
      · simp [hj, decodeFrom_junk] at h
      · obtain rfl := DecState.accum.inj hs
        rw [hd] at h
        obtain ⟨t, rfl, ht⟩ := ih h
        exact ⟨b :: t, rfl, by simpa using ht⟩

/-- A list of bytes that decodes is the instruction's encoding followed by the bytes left. -/
theorem eq_encode_append_of_decode {bytes rest : List Byte} {i : Instr} (h : decode bytes = .ok (i, rest)) :
    bytes = encode i ++ rest := by
  obtain ⟨t, rfl, ht⟩ := decodeFrom_accum_ok h
  rw [encode_of_wholeEncoding ht, List.nil_append]

/-- Settles O4: the bytes consumed are the encoding of the instruction, whose byte 0 tells its format. -/
theorem lengthFromByteZero : Obligations.LengthFromByteZero := by
  intro op tail rest i h
  have hbytes : op :: tail = encode i ++ rest := eq_encode_append_of_decode h
  have hlen : tail.length + 1 = rest.length + (encode i).length := by
    rw [← List.length_cons (a := op), hbytes, List.length_append, Nat.add_comm]
  rw [hlen, Nat.add_left_cancel_iff]
  cases i <;> obtain rfl := (List.cons.inj hbytes).1 <;> rfl

/-! ### Unlisted bytes -/

/-- Bytes that are neither a whole encoding nor the beginning of one lead to junk (43_instruction_set.md R217). -/
theorem feed_accum_unlisted {s : List Byte} {b : Byte} (hw : wholeEncoding (s ++ [b]) = none)
    (hp : isProperPrefix (s ++ [b]) = false) : feed (.accum s) b = (.junk, .incomplete) := by
  simp [feed, hw, hp]

/-- A byte that is not listed is not found among rows whose keys are listed. -/
theorem lookup_eq_none_of_keys_subset {β : Type} {l : List (Byte × β)} {listed : List Byte} {k : Byte} (hk : k ∉ listed)
    (hl : l.map Prod.fst ⊆ listed) : l.lookup k = none :=
  List.lookup_eq_none_iff.mpr fun _ hp => bne_iff_ne.mpr fun he => hk (hl (he ▸ List.mem_map_of_mem hp))

/-- Settles O7: no row has an unlisted byte as its key, and 0xED is followed by the keys of format ED only. -/
theorem unlistedBytesGoToJunk : Obligations.UnlistedBytesGoToJunk := by
  refine ⟨feed_junk, fun op hop => ?_, fun x hx => ⟨rfl, ?_⟩⟩
  · have hB1 : rowsB1.lookup op = none := lookup_eq_none_of_keys_subset hop (by decide)
    have hB2n : rowsB2n.lookup op = none := lookup_eq_none_of_keys_subset hop (by decide)
    have hB3nn : rowsB3nn.lookup op = none := lookup_eq_none_of_keys_subset hop (by decide)
    have hED : op ≠ edPrefix := fun he => hop (he ▸ by decide)
    exact feed_accum_unlisted hB1 (by simp [isProperPrefix, hB2n, hB3nn, hED])
  · have hED : rowsED.lookup x = none := lookup_eq_none_of_keys_subset hx (by decide)
    exact feed_accum_unlisted (s := [edPrefix]) hED rfl

end Sys2Proof.Machine

/-! PROOF. The decoder contract (40_decoder_contract.md): the decoder stands at `dec_init` after everything that completes,
a feed, a fetch or a step, for every decoder that keeps R102. -/

namespace Sys2Proof.Machine
open Sys2Proof.Engine (Decoder Devices)

variable {δ ι α ε σ : Type}

/-- A normal fetch that completes ends with the feed that completes, and so at `dec_init` (R102, 42_engine_step.md R149). -/
theorem fetch_ok_dec {f : Feed δ ι α} {init : δ} (hf : FeedContract init f) {s t : Engine.State δ ι α ε σ} {i : ι} {a : α}
    (h : fetch f s = .ok (i, a, t)) : t.dec = init := by
  rcases fetch_cases f s with ⟨n, j, b, -, hfeeds, hok⟩ | ⟨-, herr⟩
  · obtain ⟨-, -, rfl⟩ := ok_inj (hok.symm.trans h)
    exact feedAll_complete_dec hf hfeeds
  · cases herr.symm.trans h

/-- Only an unfaulted engine has a next step, whatever its decoder and the meaning of its instructions (10_state.md R36). -/
theorem fault_eq_none_of_stepWith {f : Feed δ ι α}
    {run : ι → α → Engine.State δ ι α ε σ → Host.Outcome (Engine.State δ ι α ε σ) Fault Refusal}
    {s t : Engine.State δ ι α ε σ} (h : stepWith f run s = .next t) : s.fault = none := by
  cases hs : s.fault with
  | none => rfl
  | some e => simp [stepWith, hs] at h

/-- Gather, execute and commit leave the decoder's state as it is, whether or not the gather faults. -/
theorem runDecoded_dec {D : Decoder δ ι α ε} {V : Devices σ} {i : ι} {a : α} {s t : Engine.State δ ι α ε σ}
    (h : runDecoded D V i a s = .next t) : t.dec = s.dec := by
  rcases runInstr_cases V i a (fun rf => D.readAddresses i rf a) (fun rf data => D.execute i rf data a) s with
    ⟨_, _, _, -, hdone, -⟩ | ⟨u, _, _, -, -, -, _, -, hfault, hu⟩
  · obtain rfl := Host.Outcome.next.inj (hdone.symm.trans h)
    rfl
  · obtain rfl := Host.Outcome.next.inj (hfault.symm.trans h)
    rw [hu]

/-- A step that does not fault has chosen its instruction, fetched or injected, by a feed that completes, and the rest of
the step leaves the decoder's state alone (10_state.md R31, R102). -/
theorem engineStep_dec {D : Decoder δ ι α ε} {V : Devices σ} {s t : Engine.State δ ι α ε σ}
    (h : engineStep D V s = .next t) (ht : t.fault = none) : t.dec = D.decInit := by
  rcases stepWith_cases D.feed (runDecoded D V) (fault_eq_none_of_stepWith h) with ⟨u, ha, hs⟩ | ⟨i, a, u, ha, hs⟩
  · obtain rfl := Host.Outcome.next.inj (hs.symm.trans h)
    obtain ⟨_, _, _, hu, -⟩ := acquire_error ha
    rw [hu] at ht
    cases ht
  · calc t.dec = u.dec := runDecoded_dec (hs.symm.trans h)
      _ = D.decInit := acquire_ok_dec D.contract ha

/-- Settles O6: TD keeps the contract, and every decoder that keeps it completes its fetches and steps at `dec_init`. -/
theorem feedResetsOnComplete : Obligations.FeedResetsOnComplete := by
  refine ⟨feed_contract, testDecoder.contract, ?_, ?_⟩
  · intro δ ι α ε σ init f s t i a hf h
    exact fetch_ok_dec hf h
  · intro δ ι α ε σ D V s t h ht
    exact engineStep_dec h ht

end Sys2Proof.Machine

/-! PROOF. Address dispatch (41_address_dispatch.md): what an Address names, the read and the write of a port, bound and
unbound, and the binding of ports before the first step. -/

namespace Sys2Proof.Machine
open Sys2Proof.Engine (Devices)

variable {δ ι α ε σ : Type}

/-! ### What an Address names -/

/-- An Address that names a port lies above Memory, and its low 8 bits are the port number (R120). -/
theorem classify_eq_port {a : Address} {p : Byte} (h : classify a = .port p) : 0x10000 ≤ a ∧ p.toNat = a &&& 0xFF := by
  by_cases ha : a < 0x10000
  · rw [classify_mem ha] at h
    cases h
  · have hle : 0x10000 ≤ a := Nat.not_lt.mp ha
    rw [classify_port hle] at h
    obtain rfl := Target.port.inj h
    exact ⟨hle, (BitVec.toNat_ofNat a 8).trans (Nat.and_two_pow_sub_one_eq_mod a 8).symm⟩

/-- Settles O8: what either answer of `classify` says of the Address. -/
theorem addressClassification : Obligations.AddressClassification := by
  intro a
  split
  next m hm =>
    obtain rfl := classify_eq_mem hm
    exact ⟨m.isLt, rfl⟩
  next p hp => exact classify_eq_port hp

/-- Settles O9, by the rule of a memory read. -/
theorem memoryReadChangesNothing : Obligations.MemoryReadChangesNothing := by
  intro δ ι α ε σ V m s
  exact resolveRead_mem V m s

/-! ### Reads and writes of a port -/

section Port

variable (V : Devices σ) {a : Address} {p : Byte} {s : Engine.State δ ι α ε σ}

/-- A read of a bound port is one call of the device's `read`, and one event with its byte (R123). -/
theorem resolveRead_bound {d : DeviceId} (hc : classify a = .port p) (hd : deviceAt s.iomap p = some d) :
    resolveRead V a s =
      .ok ((V.read s.dev d p).1,
        { s with
          dev := (V.read s.dev d p).2
          histRev := .portRead p d (V.read s.dev d p).1 :: s.histRev }) := by
  simp only [resolveRead, hc, hd, emit]

/-- A read of an unbound port raises the fatal fault (R124). -/
theorem resolveRead_unbound (hc : classify a = .port p) (hd : deviceAt s.iomap p = none) :
    resolveRead V a s = .error (raiseFault (.unboundPortRead p a) s) := by
  simp only [resolveRead, hc, hd]

/-- A write to a bound port is one call of the device's `write`, and one event (R126). -/
theorem resolveWrite_bound {d : DeviceId} (v : Byte) (hc : classify a = .port p) (hd : deviceAt s.iomap p = some d) :
    resolveWrite V a v s = { s with dev := V.write s.dev d p v, histRev := .portWrite p d v :: s.histRev } := by
  simp only [resolveWrite, hc, hd, emit]

/-- A write to an unbound port is the report and nothing else (R127). -/
theorem resolveWrite_unbound (v : Byte) (hc : classify a = .port p) (hd : deviceAt s.iomap p = none) :
    resolveWrite V a v s = { s with histRev := .unboundPortWrite p v :: s.histRev } := by
  simp only [resolveWrite, hc, hd, emit]

end Port

/-- The oracle gives the environment's oldest answer for the device, if there is one (R128). -/
theorem oracleRead_of_answer {o : Oracle} {d : DeviceId} {w : Byte} {rest : List (DeviceId × Byte)}
    (h : takeAnswer d o.answers = some (w, rest)) (p : Byte) : oracleRead o d p = (w, { o with answers := rest }) := by
  simp only [oracleRead, h]

/-- With no answer chosen for the device the oracle draws the free byte (R128). -/
theorem oracleRead_of_no_answer {o : Oracle} {d : DeviceId} (h : takeAnswer d o.answers = none) (p : Byte) :
    oracleRead o d p = (Config.deviceByte d p o.draws, { o with draws := o.draws + 1 }) := by
  simp only [oracleRead, h]

/-- Settles O12: the rule of a read of a bound port, and the two answers of the oracle. -/
theorem boundPortReadCallsDeviceOnce : Obligations.BoundPortReadCallsDeviceOnce := by
  refine ⟨?_, fun o d p => ⟨?_, ?_⟩⟩
  · intro δ ι α ε σ V a d s ha hd
    exact resolveRead_bound V (classify_port ha) hd
  · intro w rest h
    exact oracleRead_of_answer h p
  · intro h
    exact oracleRead_of_no_answer h p

/-- Settles O13, by the rule of a read of an unbound port. -/
theorem unboundPortReadIsFatal : Obligations.UnboundPortReadIsFatal := by
  intro δ ι α ε σ V a s ha hd
  exact resolveRead_unbound V (classify_port ha) hd

/-- Settles O14, by the rule of a write to a bound port. -/
theorem boundPortWriteCallsDeviceOnce : Obligations.BoundPortWriteCallsDeviceOnce := by
  intro δ ι α ε σ V a v d s ha hd
  exact resolveWrite_bound V v (classify_port ha) hd

/-- Settles O15: the rule of a write to an unbound port, from whose state the commit goes on. -/
theorem unboundPortWriteIsReported : Obligations.UnboundPortWriteIsReported := by
  intro δ ι α ε σ V a v ws s ha hd
  have hw := resolveWrite_unbound V v (classify_port ha) hd
  exact ⟨hw, congrArg (commit V ws) hw⟩

/-! ### The binding of ports -/

/-- Binding gives each listed port to the device, and leaves every other port its binding (R130). -/
theorem deviceAt_bindPorts (ports : List Nat) (d : DeviceId) (io : IoMap) (p : Byte) :
    deviceAt (bindPorts ports d io) p = if p.toNat ∈ ports then some d else deviceAt io p := by
  induction ports generalizing io with
  | nil => rfl
  | cons q ports ih =>
    calc deviceAt (bindPorts ports d (assocInsert q d io)) p
        = if p.toNat ∈ ports then some d else if p.toNat = q then some d else deviceAt io p := by
          rw [ih, deviceAt_insert]
      _ = if p.toNat ∈ q :: ports then some d else deviceAt io p := by
          by_cases hq : p.toNat = q <;> simp [hq]

theorem portsWellFormed_iff {ports : List Nat} : portsWellFormed ports = true ↔ ∀ p ∈ ports, p < 256 := by
  simp [portsWellFormed]

theorem started_iff {s : Engine.State δ ι α ε σ} : started s = true ↔ s.histRev ≠ [] := by
  simp [started]

/-- Before the first step the port numbers alone decide whether a `bind` is accepted (R131, R132). -/
theorem bindDevice_of_histRev_eq_nil (ports : List Nat) (d : DeviceId) {s : Engine.State δ ι α ε σ}
    (h : s.histRev = []) :
    bindDevice ports d s =
      if portsWellFormed ports then .next { s with iomap := bindPorts ports d s.iomap }
      else .refused .bindPortOutOfRange :=
  if_neg fun hs => started_iff.mp hs h

/-- Once there is a history every `bind` is refused (R131, 60_exceptions.md R308). -/
theorem bindDevice_of_histRev_ne_nil (ports : List Nat) (d : DeviceId) {s : Engine.State δ ι α ε σ}
    (h : s.histRev ≠ []) : bindDevice ports d s = .refused .bindAfterStart :=
  if_pos (started_iff.mpr h)

/-- Once there is a history every load is refused (log 11). -/
theorem loadImage_of_histRev_ne_nil (image : List (Word × Byte)) {s : Engine.State δ ι α ε σ} (h : s.histRev ≠ []) :
    loadImage image s = .refused .loadAfterStart :=
  if_pos (started_iff.mpr h)

/-- Settles O16: with ports in range the `bind` is accepted, and writes the I/O Map alone. -/
theorem bindLastWins : Obligations.BindLastWins := by
  intro δ ι α ε σ ports d s hs hports
  refine ⟨{ s with iomap := bindPorts ports d s.iomap }, ?_, deviceAt_bindPorts ports d s.iomap, rfl⟩
  rw [bindDevice_of_histRev_eq_nil ports d hs, if_pos (portsWellFormed_iff.mpr hports)]

/-! ### The history that closes the setup -/

/-- Every step appends an event, `StepReturn` or `Fault` (42_engine_step.md R155, 60_exceptions.md R300). -/
theorem step_histRev_ne_nil {s t : State} (h : step s = .next t) : t.histRev ≠ [] := by
  rcases step_next_cases h with ⟨_, _, _, _, _, _, rfl, -⟩ | ⟨_, _, _, _, _, rfl, -⟩
  · exact List.cons_ne_nil _ _
  · exact List.cons_ne_nil _ _

/-- No action empties the history: a step appends to it, and the others leave it as it is. -/
theorem act_histRev_ne_nil {x : HostAction Oracle} {s t : State} (h : act x s = .next t) (hs : s.histRev ≠ []) :
    t.histRev ≠ [] := by
  by_cases hx : x = .step
  · subst hx
    exact step_histRev_ne_nil h
  · obtain ⟨ht, -, -, -⟩ := act_setup_frame hx h
    rwa [ht]

/-- Settles O17: what `bindDevice` and `loadImage` answer with and without a history, and that no action empties it. -/
theorem setupIsRefusedAfterAStep : Obligations.SetupIsRefusedAfterAStep := by
  refine ⟨?_, fun s t => step_histRev_ne_nil, fun x s t => act_histRev_ne_nil, ?_, fun _ _ _ _ _ _ _ => rfl⟩
  · intro δ ι α ε σ ports d image s hs
    exact ⟨bindDevice_of_histRev_ne_nil ports d hs, bindDevice_of_histRev_ne_nil (claimedPorts s.params d) d hs,
      loadImage_of_histRev_ne_nil image hs⟩
  · rintro δ ι α ε σ ports d s hs ⟨p, hp, hle⟩
    have hbad : ¬ portsWellFormed ports = true := fun hwf => Nat.not_lt.mpr hle (portsWellFormed_iff.mp hwf p hp)
    rw [bindDevice_of_histRev_eq_nil ports d hs, if_neg hbad]

end Sys2Proof.Machine

/-! PROOF. Operand gather and commit (42_engine_step.md R151, R154): a gather entry by entry and over two lists, the end
of a step by what its gather answers, and what a whole write list leaves. -/

namespace Sys2Proof.Machine
open Sys2Proof.Engine (Decoder Devices)

variable {δ ι α ε σ : Type} (V : Devices σ)

/-! ### Operand gather -/

section Gather

variable {a : Address} {as : List Address} {v : Byte} {data : List Byte} {s t : Engine.State δ ι α ε σ}

/-- A fatal fault in the first entry is the end of the gather. -/
theorem gather_cons_of_error (as : List Address) (h : resolveRead V a s = .error t) :
    gather V (a :: as) s = .error t := by
  simp only [gather, h]

theorem gather_singleton (h : resolveRead V a s = .ok (v, t)) : gather V [a] s = .ok ([v], t) := by
  simp only [gather, h]

/-- A fatal fault in the first list leaves the second unread. -/
theorem gather_append_of_error (bs : List Address) (h : gather V as s = .error t) :
    gather V (as ++ bs) s = .error t := by
  simp only [gather_append, h]

/-- After a first list that is read to its end, the second decides how the gather ends. -/
theorem gather_append_of_ok (bs : List Address) (h : gather V as s = .ok (data, t)) :
    (∀ data' u, gather V bs t = .ok (data', u) → gather V (as ++ bs) s = .ok (data ++ data', u)) ∧
    (∀ u, gather V bs t = .error u → gather V (as ++ bs) s = .error u) := by
  constructor
  · intro data' u hbs
    simp only [gather_append, h, hbs]
  · intro u hbs
    simp only [gather_append, h, hbs]

/-- A gather leaves the registers and Memory. -/
theorem gather_ok_frame (h : gather V as s = .ok (data, t)) :
    data.length = as.length ∧ t.rf = s.rf ∧ t.mem = s.mem := by
  obtain ⟨hlen, es, -, ht⟩ := gather_ok V h
  rw [ht]
  exact ⟨hlen, rfl, rfl⟩

/-- A fatal fault in the gather is the end of the step: nothing is executed (R151, R157). -/
theorem runDecoded_of_gather_error {D : Decoder δ ι α ε} {i : ι} {args : α}
    (h : gather V (D.readAddresses i s.rf args) s = .error t) : runDecoded D V i args s = .next t := by
  simp only [runDecoded, runInstr, h]

/-- The gathered bytes go to `execute`, whose registers and write list make the rest of the step (R152–R155). -/
theorem runDecoded_of_gather_ok {D : Decoder δ ι α ε} {i : ι} {args : α}
    (h : gather V (D.readAddresses i s.rf args) s = .ok (data, t)) :
    runDecoded D V i args s =
      .next (emit (.stepReturn i args)
        (commit V (D.execute i s.rf data args).2 { t with rf := (D.execute i s.rf data args).1 })) := by
  simp only [runDecoded, runInstr, h]

end Gather

/-- Settles O18: a gather by its first entry and by its first part, and the end of a step by what its gather answers. -/
theorem operandGatherInOrder : Obligations.OperandGatherInOrder := by
  intro δ ι α ε σ V
  refine ⟨fun s => rfl, fun a as s t => gather_cons_of_error V as, fun a s t v => gather_singleton V, ?_,
    fun as bs s t => gather_append_of_error V bs,
    fun D i args s t => ⟨runDecoded_of_gather_error V, fun data => runDecoded_of_gather_ok V⟩⟩
  intro as bs s t data h
  obtain ⟨hlen, hrf, hmem⟩ := gather_ok_frame V h
  exact ⟨hlen, hrf, hmem, gather_append_of_ok V bs h⟩

/-! ### Commit -/

/-- What a commit appends to the history, newest first (R154). -/
theorem commit_histRev (ws : List (Address × Byte)) (s : Engine.State δ ι α ε σ) :
    (commit V ws s).histRev = (ws.filterMap (writeEvent s.iomap)).reverse ++ s.histRev :=
  congrArg Engine.State.histRev (commit_eq V ws s)

/-- The same in the order of happening. -/
theorem commit_hist (ws : List (Address × Byte)) (s : Engine.State δ ι α ε σ) :
    (commit V ws s).hist = s.hist ++ ws.filterMap (writeEvent s.iomap) := by
  simp only [Engine.State.hist, commit_histRev, List.reverse_append, List.reverse_reverse]

/-- Settles O19: the cells, the events and the frame of a commit. -/
theorem commitInOrder : Obligations.CommitInOrder := by
  intro δ ι α ε σ V ws s
  refine ⟨readByte_commit V ws s, commit_hist V ws s, ?_⟩
  rw [commit_histRev]
  exact commit_eq V ws s

end Sys2Proof.Machine

/-! PROOF. The choice of the step's instruction (42_engine_step.md R140–R150): the normal fetch, with any decoder and with
TD, and the delivery of an interrupt in each mode. -/

namespace Sys2Proof.Machine
open Sys2Proof.Engine (Decoder Devices)

variable {δ ι α ε σ : Type}

/-! ### The two parts of a step -/

section Step

variable {f : Feed δ ι α} {run : ι → α → Engine.State δ ι α ε σ → Host.Outcome (Engine.State δ ι α ε σ) Fault Refusal}
  {s s' t : Engine.State δ ι α ε σ} {i : ι} {a : α}

/-- A faulted engine has no further step, whatever its decoder (R141). -/
theorem stepWith_of_fault {e : FatalFault} (h : s.fault = some e) : stepWith f run s = .fault (.machineFaulted e) := by
  simp only [stepWith, h]

theorem stepWith_of_acquire_ok (hf : s.fault = none) (h : acquire f s = .ok (i, a, t)) :
    stepWith f run s = run i a t := by
  simp only [stepWith, hf, h]

theorem stepWith_of_acquire_error (hf : s.fault = none) (h : acquire f s = .error t) :
    stepWith f run s = .next t := by
  simp only [stepWith, hf, h]

/-- A step is told by the fault status and the choice of the instruction alone. -/
theorem stepWith_congr (hf : s.fault = s'.fault) (h : acquire f s = acquire f s') :
    stepWith f run s = stepWith f run s' := by
  simp only [stepWith, hf, h]

theorem deliveryDue_iff : deliveryDue s = true ↔ s.pend = true ∧ s.rf.ie = true := by
  simp [deliveryDue]

/-- With no delivery due the step fetches (R143, R144). -/
theorem acquire_of_no_delivery (f : Feed δ ι α) (h : ¬(s.pend = true ∧ s.rf.ie = true)) : acquire f s = fetch f s :=
  if_neg (deliveryDue_iff.not.mpr h)

/-- A delivery in mode 1 injects (R146). -/
theorem acquire_of_mode1 (f : Feed δ ι α) (hd : deliveryDue s = true) (hm : s.rf.im = .mode1) :
    acquire f s = inject f (deliver s) := by
  simp only [acquire, hd, hm, if_true]

/-- A delivery in mode 0 or 2 faults under policy `Reject` (R148). -/
theorem acquire_of_reject (f : Feed δ ι α) (hd : deliveryDue s = true) (hm : s.rf.im ≠ .mode1)
    (hp : s.params.imPolicy = .reject) :
    acquire f s = .error (raiseFault (.unsupportedInterruptMode s.rf.im) (deliver s)) := by
  cases him : s.rf.im with
  | mode1 => exact absurd him hm
  | mode0 => simp only [acquire, hd, him, hp, if_true]
  | mode2 => simp only [acquire, hd, him, hp, if_true]

/-- A delivery in mode 0 or 2 fetches under policy `NoOp`, as the engine with the interrupt consumed does (R148). -/
theorem acquire_of_noOp (f : Feed δ ι α) (hd : deliveryDue s = true) (hm : s.rf.im ≠ .mode1)
    (hp : s.params.imPolicy = .noOp) : acquire f s = acquire f (deliver s) := by
  rw [acquire_of_no_delivery f (s := deliver s) nofun]
  cases him : s.rf.im with
  | mode1 => exact absurd him hm
  | mode0 => simp only [acquire, hd, him, hp, if_true]
  | mode2 => simp only [acquire, hd, him, hp, if_true]

end Step

/-- Settles O24, for the engine with TD. -/
theorem faultedMachineHasNoStep : Obligations.FaultedMachineHasNoStep := fun _ _ h => stepWith_of_fault h

/-! ### Normal fetch -/

/-- A fetch whose feeds first complete within the budget ends with that feed (R149). -/
theorem fetch_of_complete {f : Feed δ ι α} {s : Engine.State δ ι α ε σ} {n : Nat} {i : ι} {a : α}
    (hn : n < s.params.decodeBudget.val)
    (h : (feedAll f s.dec (readBytes s.mem s.rf.pc (n + 1))).2 = List.replicate n .incomplete ++ [.complete i a]) :
    fetch f s = .ok (i, a, afterFetch (n + 1) (feedAll f s.dec (readBytes s.mem s.rf.pc (n + 1))).1 s) :=
  fetchLoop_complete f _ (Nat.le_sub_one_of_lt hn) h

/-- A fetch none of whose feeds completes faults when the budget is spent (R150). -/
theorem fetch_of_incomplete {f : Feed δ ι α} {s : Engine.State δ ι α ε σ}
    (h : (feedAll f s.dec (readBytes s.mem s.rf.pc s.params.decodeBudget.val)).2 =
      List.replicate s.params.decodeBudget.val .incomplete) :
    fetch f s =
      .error (raiseFault (.decodeFault s.rf.pc s.params.decodeBudget.val)
        (afterFetch s.params.decodeBudget.val
          (feedAll f s.dec (readBytes s.mem s.rf.pc s.params.decodeBudget.val)).1 s)) := by
  have hk : s.params.decodeBudget.val - 1 + 1 = s.params.decodeBudget.val :=
    Nat.sub_add_cancel s.params.decodeBudget.property
  simpa only [hk, fetch] using fetchLoop_incomplete f (.decodeFault s.rf.pc s.params.decodeBudget.val)
    (k := s.params.decodeBudget.val - 1) (by rwa [hk])

/-- Settles O20: with no delivery the step's instruction is the one the fetch completes. -/
theorem fetchFeedsUntilComplete : Obligations.FetchFeedsUntilComplete := by
  intro δ ι α ε σ f run s n i a hf hd hn h
  exact stepWith_of_acquire_ok hf ((acquire_of_no_delivery f hd).trans (fetch_of_complete hn h))

/-- Settles O21: a fetch that spends its budget, one whose bytes are an instruction and so within a budget that meets R7,
and the longest instruction of TD. -/
theorem decodeBudgetExceededFaults : Obligations.DecodeBudgetExceededFaults := by
  refine ⟨?_, ?_, fun p => longestAtMost_feed p.decodeBudget.val⟩
  · intro δ ι α ε σ f run s hf hd h
    exact stepWith_of_acquire_error hf ((acquire_of_no_delivery f hd).trans (fetch_of_incomplete h))
  · intro δ ι α ε σ D V s n hf hdec hd hcov hbytes
    have hn : n ≤ s.params.decodeBudget.val := by simpa using hcov _ hbytes
    obtain ⟨k, i, a, hlen, hfeeds⟩ := feedAll_of_completesAtEnd hbytes
    obtain rfl : n = k + 1 := by simpa using hlen
    refine ⟨hn, i, a, ?_⟩
    have hstep := fetchFeedsUntilComplete δ ι α ε σ D.feed (runDecoded D V) s k i a hf hd hn (hdec ▸ hfeeds)
    rwa [hdec, feedAll_complete_dec D.contract hfeeds] at hstep

/-! ### The bytes of one instruction of TD -/

/-- The bytes that decode to an instruction begin with its own, of which the last alone completes a feed. -/
theorem feedAll_of_decodeFrom {d : DecState} {bytes rest : List Byte} {i : Instr}
    (h : decodeFrom d bytes = .ok (i, rest)) :
    ∃ t n, bytes = t ++ rest ∧ t.length = n + 1 ∧
      (feedAll feed d t).2 = List.replicate n .incomplete ++ [.complete i i.args] := by
  induction bytes generalizing d with
  | nil => cases d <;> cases h
  | cons b bs ih =>
    rw [decodeFrom] at h
    cases hr : (feed d b).2 with
    | complete j a =>
      rw [hr] at h
      obtain ⟨rfl, rfl⟩ := Prod.mk.inj (Except.ok.inj h)
      obtain ⟨rfl, -⟩ := feed_complete_cases hr
      exact ⟨[b], 0, rfl, rfl, by simp [feedAll, hr]⟩
    | incomplete =>
      rw [hr] at h
      obtain ⟨t, n, rfl, hlen, hfeeds⟩ := ih h
      exact ⟨b :: t, n + 1, rfl, by rw [List.length_cons, hlen], by
        rw [feedAll, hr, hfeeds, List.replicate_succ, List.cons_append]⟩

/-- The feeds of an instruction's bytes at the front of a list that decodes to it. -/
theorem feedAll_encode_of_decode {bytes rest : List Byte} {i : Instr} (h : decode bytes = .ok (i, rest)) :
    ∃ n, (encode i).length = n + 1 ∧
      (feedAll feed decInit (encode i)).2 = List.replicate n .incomplete ++ [.complete i i.args] := by
  obtain ⟨t, n, ht, hlen, hfeeds⟩ := feedAll_of_decodeFrom h
  obtain rfl : t = encode i := List.append_cancel_right (ht.symm.trans (eq_encode_append_of_decode h))
  exact ⟨n, hlen, hfeeds⟩

/-- Fewer bytes read from the same address are the first of them. -/
theorem take_readBytes (m : Memory) (a : Word) {n k : Nat} (h : n ≤ k) : (readBytes m a k).take n = readBytes m a n := by
  induction n generalizing a k with
  | zero => rfl
  | succ n ih =>
    obtain ⟨k, rfl⟩ : ∃ j, k = j + 1 := ⟨k - 1, by omega⟩
    rw [readBytes, readBytes, List.take_succ_cons, ih (a + 1) (Nat.le_of_succ_le_succ h)]

/-- Where the bytes in Memory decode to an instruction, its own bytes stand at the front. -/
theorem readBytes_encode_of_decode {m : Memory} {a : Word} {k : Nat} {rest : List Byte} {i : Instr}
    (h : decode (readBytes m a k) = .ok (i, rest)) : readBytes m a (encode i).length = encode i := by
  have hbytes := eq_encode_append_of_decode h
  have hle : (encode i).length ≤ k := by
    rw [← readBytes_length m a k, hbytes, List.length_append]
    exact Nat.le_add_right _ _
  rw [← take_readBytes m a hle, hbytes, List.take_left]

/-- Settles O22: the bytes of the instruction are its encoding, whose feeds complete with the last byte. -/
theorem stepRunsDecodedInstruction : Obligations.StepRunsDecodedInstruction := by
  refine ⟨?_, step_eq_engineStep⟩
  rintro s i rest ⟨hf, hdec⟩ hd hlen hdecode
  obtain ⟨n, hn, hfeeds⟩ := feedAll_encode_of_decode hdecode
  have hbytes : readBytes s.mem s.rf.pc (n + 1) = encode i := hn ▸ readBytes_encode_of_decode hdecode
  rw [hn] at hlen ⊢
  have hstep := fetchFeedsUntilComplete _ _ _ _ _ feed (fun i _ => exec i) s n i i.args hf hd hlen
    (by rw [hdec, hbytes, hfeeds])
  rwa [hdec, hbytes, feedAll_complete_dec feed_contract hfeeds] at hstep

/-! ### The delivery of an interrupt -/

/-- Settles O31: a delivery in mode 1 injects, and the third feed alone decides what comes of it. -/
theorem injectionUsesThirdResult : Obligations.InjectionUsesThirdResult := by
  intro δ ι α ε σ f run s hf hp hie hm
  have ha := acquire_of_mode1 f (deliveryDue_iff.mpr ⟨hp, hie⟩) hm
  rcases inject_deliver_cases f s with ⟨i, a, hthird, hok⟩ | ⟨hthird, herr⟩ <;> rw [hthird]
  · refine ⟨fun j b h => ?_, nofun⟩
    obtain ⟨rfl, rfl⟩ := DecodeResult.complete.inj (Option.some.inj h)
    exact stepWith_of_acquire_ok hf (ha.trans hok)
  · exact ⟨nofun, fun _ => stepWith_of_acquire_error hf (ha.trans herr)⟩

/-- Settles O32: the delivery faults, or is followed by the fetch of the machine that has consumed it. -/
theorem unsupportedModeDelivery : Obligations.UnsupportedModeDelivery := by
  intro s hf hp hie hm
  have hd : deliveryDue s = true := deliveryDue_iff.mpr ⟨hp, hie⟩
  exact ⟨fun hpol => stepWith_of_acquire_error hf (acquire_of_reject feed hd hm hpol),
    fun hpol => stepWith_congr rfl (acquire_of_noOp feed hd hm hpol)⟩

/-- What a cell holds after a push: the low byte at SP − 2, the high byte at SP − 1 (43_instruction_set.md R203). -/
theorem lastWritten_pushWrites (b : Word) (old : Byte) (sp value : Word) :
    lastWritten b old (pushWrites sp value) =
      if b = sp - 2 then loByte value else if b = sp - 1 then hiByte value else old := by
  simp only [lastWritten, pushWrites, memAddress, List.foldl_cons, List.foldl_nil, BitVec.toNat_inj, eq_comm]

/-- What CALL leaves: the two bytes of `PC` below SP, every other cell, and the registers (43_instruction_set.md R203). -/
theorem exec_call_pushes (nn : Word) (s : State) :
    ∃ t, exec (.call nn) s = .next t ∧
      readByte t.mem (s.rf.ext.sp - 1) = hiByte s.rf.pc ∧
      readByte t.mem (s.rf.ext.sp - 2) = loByte s.rf.pc ∧
      (∀ b : Word, b ≠ s.rf.ext.sp - 1 → b ≠ s.rf.ext.sp - 2 → readByte t.mem b = readByte s.mem b) ∧
      t = { s with
            rf := { s.rf with pc := nn, ext := { s.rf.ext with sp := s.rf.ext.sp - 2 } }
            mem := t.mem
            histRev := .stepReturn (.call nn) [loByte nn, hiByte nn] :: s.histRev } := by
  have hne : s.rf.ext.sp - 1 ≠ s.rf.ext.sp - 2 := by bv_omega
  have hpush : (pushWrites s.rf.ext.sp s.rf.pc).filterMap (writeEvent s.iomap) =
      ([] : List (Event Instr (List Byte))) := by
    simp [pushWrites, writeEvent]
  refine ⟨_, runOffer_noRead (.call nn) _ s, ?_, ?_, fun b h1 h2 => ?_, ?_⟩
  · simp only [readByte_commit, lastWritten_pushWrites, if_neg hne, if_true]
  · simp only [readByte_commit, lastWritten_pushWrites, if_true]
  · simp only [readByte_commit, lastWritten_pushWrites, if_neg h1, if_neg h2]
  · simp only [hpush]
    rfl

/-- Settles O30: the injected bytes are CALL 0x0038, which pushes the `PC` that no injected feed has advanced. -/
theorem modeOneDeliveryCalls0038 : Obligations.ModeOneDeliveryCalls0038 := by
  rintro s ⟨hf, hdec⟩ hp hie hm
  have hfeeds : feedAll feed s.dec [0xCD, 0x38, 0x00] =
      (s.dec, [.incomplete, .incomplete, .complete (.call 0x0038) [0x38, 0x00]]) := by
    rw [hdec]
    rfl
  obtain ⟨hthird, -⟩ := injectionUsesThirdResult _ _ _ _ _ feed (fun i _ => exec i) s hf hp hie hm
  have hstep : step s = exec (.call 0x0038) (afterInjection feed s) :=
    hthird (.call 0x0038) [0x38, 0x00] (by rw [hfeeds]; rfl)
  obtain ⟨t, ht, hhi, hlo, hother, hframe⟩ := exec_call_pushes 0x0038 (afterInjection feed s)
  refine ⟨t, hstep.trans ht, hhi, hlo, hother, ?_, ?_⟩
  · rw [hframe]
    simp only [Engine.State.hist, afterInjection, hm, List.reverse_cons, List.append_assoc]
    rfl
  · rw [hframe]
    simp only [afterInjection, hfeeds]

end Sys2Proof.Machine

/-! PROOF. The events and the end of a step (42_engine_step.md R143, R145, R155–R157): one `StepReturn` or one fault a step,
what a faulting step leaves alone, and what a delivery has done by the end of its step. -/

namespace Sys2Proof.Machine

variable {ι α : Type}

/-! ### The events of a step -/

/-- None of the events is a port write or the end of an instruction; of a faulting step, none is (R157). -/
def NoWriteOrReturn (es : List (Event ι α)) : Prop :=
  ∀ e ∈ es, e.isPortWrite = false ∧ e.isStepReturn = false

theorem OnlyFeeds.noWriteOrReturn {es : List (Event ι α)} (h : OnlyFeeds es) : NoWriteOrReturn es := by
  intro e he
  rcases h e he with ⟨_, _, rfl⟩ | ⟨_, rfl⟩ <;> exact ⟨rfl, rfl⟩

theorem countP_isStepReturn_eq_zero {es : List (Event ι α)} (h : ∀ e ∈ es, e.isStepReturn = false) :
    es.countP Event.isStepReturn = 0 :=
  List.countP_eq_zero.mpr fun e he => Bool.eq_false_iff.mp (h e he)

/-- How a step ends, by its events: with the `StepReturn` of its instruction, the only one; or with a fault, before which
nothing was written and nothing returned, and Memory and every register but `PC` and the `IE` a delivery clears are as
before (R155–R157). -/
theorem step_next_events {s t : State} (h : step s = .next t) :
    (∃ i es, t.fault = none ∧ t.histRev = .stepReturn i i.args :: (es ++ s.histRev) ∧
      ∀ e ∈ es, e.isStepReturn = false) ∨
    (∃ f pc dec es,
      t = { s with
            rf := { s.rf with pc := pc, ie := s.rf.ie && !s.pend }
            pend := s.pend && !s.rf.ie
            dec := dec
            fault := some f
            histRev := .fault f :: (es ++ s.histRev) } ∧
      NoWriteOrReturn es) := by
  have hf := fault_eq_none_of_step h
  rcases step_cases hf with ⟨u, ha, hs⟩ | ⟨i, u, ha, hs⟩
  · obtain rfl := Host.Outcome.next.inj (hs.symm.trans h)
    obtain ⟨pc, es, f, hu, he⟩ := acquire_error ha
    exact .inr ⟨f, pc, u.dec, es, hu, he.noWriteOrReturn⟩
  · obtain ⟨pc, es, hu, -, he⟩ := acquire_ok ha
    rcases exec_cases i u with ⟨rf, mem, dev, es', hx, -, he'⟩ | ⟨n, -, -, hx⟩
    · obtain rfl := Host.Outcome.next.inj ((hs.trans hx).symm.trans h)
      refine .inl ⟨i, es' ++ es, ?_, ?_, fun e hm => ?_⟩
      · rw [hu]
        exact hf
      · rw [hu, List.append_assoc]
      · rcases List.mem_append.mp hm with hm | hm
        · exact (he' e hm).1
        · exact (he.noWriteOrReturn e hm).2
    · obtain rfl := Host.Outcome.next.inj ((hs.trans hx).symm.trans h)
      refine .inr ⟨.unboundPortRead n (portAddress n), pc, u.dec, es, ?_, he.noWriteOrReturn⟩
      conv_lhs => rw [hu]
      rfl

/-- Settles O26: of the events a step appends, only the newest can be a `StepReturn`, and it is one just when the step
does not fault. -/
theorem oneInstructionPerStep : Obligations.OneInstructionPerStep := by
  intro s t _ h
  rcases step_next_events h with ⟨i, es, hf, hh, he⟩ | ⟨f, pc, dec, es, rfl, he⟩
  · refine ⟨.stepReturn i i.args :: es, hh, List.cons_ne_nil _ _, fun _ => ⟨?_, i, rfl⟩, fun f hf' => ?_⟩
    · rw [List.countP_cons_of_pos rfl, countP_isStepReturn_eq_zero he]
    · rw [hf] at hf'
      cases hf'
  · refine ⟨.fault f :: es, rfl, List.cons_ne_nil _ _, nofun, fun g hg => ?_⟩
    obtain rfl := Option.some.inj hg
    exact ⟨countP_isStepReturn_eq_zero (List.forall_mem_cons.mpr ⟨rfl, fun e hm => (he e hm).2⟩), rfl⟩

/-- Settles O27, by the faulting end of `step_next_events`. -/
theorem faultingStepWritesNothing : Obligations.FaultingStepWritesNothing := by
  intro s t _ h ht
  rcases step_next_events h with ⟨_, _, hf, -⟩ | ⟨f, pc, dec, es, rfl, he⟩
  · exact absurd hf ht
  · exact ⟨rfl, rfl, rfl, rfl, rfl, .fault f :: es, rfl, List.forall_mem_cons.mpr ⟨⟨rfl, rfl⟩, he⟩⟩

/-! ### The steps of a run -/

/-- A step that does not fault adds one `StepReturn` to the history. -/
theorem countP_isStepReturn_of_step {s t : State} (h : step s = .next t) (ht : t.fault = none) :
    t.histRev.countP Event.isStepReturn = s.histRev.countP Event.isStepReturn + 1 := by
  obtain ⟨es, hh, -, hret, -⟩ := oneInstructionPerStep s t (fault_eq_none_of_step h) h
  rw [hh, List.countP_append, (hret ht).1, Nat.add_comm]

/-- A run that ends unfaulted began so: no action clears `FAULT` (10_state.md R36). -/
theorem fault_eq_none_of_actAll {xs : List (HostAction Oracle)} {s t : State} (h : actAll xs s = .next t)
    (ht : t.fault = none) : s.fault = none := by
  by_contra hs
  refine actAll_induction (P := fun s => s.fault ≠ none) (fun x u v hu hx => ?_) hs h ht
  by_cases hstep : x = .step
  · subst hstep
    exact absurd (fault_eq_none_of_step hx) hu
  · obtain ⟨hv, -⟩ := act_setup_frame hstep hx
    rwa [hv]

/-- A run that ends unfaulted adds one `StepReturn` for each of its steps, and none for its other actions. -/
theorem countP_isStepReturn_of_actAll {xs : List (HostAction Oracle)} {s t : State} (h : actAll xs s = .next t)
    (ht : t.fault = none) :
    t.histRev.countP Event.isStepReturn = s.histRev.countP Event.isStepReturn + xs.count .step := by
  induction xs generalizing s with
  | nil =>
    obtain rfl := Host.Outcome.next.inj h
    rfl
  | cons x xs ih =>
    rw [actAll_cons] at h
    cases hx : act x s with
    | next u =>
      rw [hx] at h
      rw [ih h]
      by_cases hstep : x = .step
      · subst hstep
        rw [countP_isStepReturn_of_step hx (fault_eq_none_of_actAll h ht), List.count_cons_self]
        omega
      · obtain ⟨hu, -⟩ := act_setup_frame hstep hx
        rw [hu, List.count_cons_of_ne hstep]
    | fault r => simp [hx] at h
    | refused r => simp [hx] at h

/-- Settles O42: a run from creation begins with an empty history. -/
theorem goodRunExecutesOneInstructionPerStep : Obligations.GoodRunExecutesOneInstructionPerStep := by
  rintro l xs t ⟨h, ht⟩
  rw [Engine.State.hist, List.countP_reverse, countP_isStepReturn_of_actAll h ht]
  exact Nat.zero_add _

/-! ### The step of a delivery -/

/-- No encoding that ends in 0x00, the last injected byte, is that of EI (43_instruction_set.md R213). -/
theorem ne_ei_of_feed_zero {d : DecState} {i : Instr} {a : List Byte} (h : (feed d 0x00).2 = .complete i a) : i ≠ .ei := by
  rintro rfl
  obtain ⟨-, s, -, hw, -⟩ := feed_complete_cases h
  have hlast := congrArg List.getLast? (encode_of_wholeEncoding hw)
  rw [List.getLast?_concat] at hlast
  exact absurd hlast (by decide)

/-- The four ways of a delivery, by mode, policy and the third injected feed (R145–R148). -/
theorem step_delivery_cases {s : State} (hf : s.fault = none) (hd : deliveryDue s = true) :
    (∃ i, i ≠ .ei ∧ step s = exec i (afterInjection feed s)) ∨
    step s = .next (raiseFault .injectionIncomplete (afterInjection feed s)) ∨
    step s = .next (raiseFault (.unsupportedInterruptMode s.rf.im) (deliver s)) ∨
    (s.rf.im ≠ .mode1 ∧ s.params.imPolicy = .noOp ∧ step s = step (deliver s)) := by
  by_cases hm : s.rf.im = .mode1
  · have ha := acquire_of_mode1 feed hd hm
    rcases inject_deliver_cases feed s with ⟨i, a, hthird, hok⟩ | ⟨-, herr⟩
    · exact .inl ⟨i, ne_ei_of_feed_zero (Option.some.inj hthird), step_of_acquire_ok hf (ha.trans hok)⟩
    · exact .inr (.inl (step_of_acquire_error hf (ha.trans herr)))
  · cases hp : s.params.imPolicy with
    | reject => exact .inr (.inr (.inl (step_of_acquire_error hf (acquire_of_reject feed hd hm hp))))
    | noOp => exact .inr (.inr (.inr ⟨hm, rfl, stepWith_congr rfl (acquire_of_noOp feed hd hm hp)⟩))

/-- An instruction appends to the history. -/
theorem exec_appends {i : Instr} {s t : State} (h : exec i s = .next t) : ∃ es, t.histRev = es ++ s.histRev := by
  rcases exec_next_cases h with ⟨_, _, _, es, rfl, -⟩ | ⟨f, _, es, rfl, -⟩
  · exact ⟨.stepReturn i i.args :: es, rfl⟩
  · exact ⟨.fault f :: es, rfl⟩

/-- A step appends to the history. -/
theorem step_appends {s t : State} (h : step s = .next t) : ∃ es, t.histRev = es ++ s.histRev := by
  obtain ⟨es, hh, -⟩ := oneInstructionPerStep s t (fault_eq_none_of_step h) h
  exact ⟨es, hh⟩

/-- Only EI sets `IE` (43_instruction_set.md R213). -/
theorem exec_ie_eq_false {i : Instr} {s t : State} (h : exec i s = .next t) (hi : i ≠ .ei) (hs : s.rf.ie = false) :
    t.rf.ie = false := by
  rcases exec_next_cases h with ⟨data, _, _, _, rfl, -⟩ | ⟨_, _, _, rfl, -⟩
  · rcases execute_interruptControl i s.rf data with ⟨hie, -⟩ | ⟨b, hb, hrf⟩ | ⟨m, -, hrf⟩
    · exact hie.trans hs
    · cases b with
      | true => exact absurd hb hi
      | false => exact congrArg RegFile.ie hrf
    · exact (congrArg RegFile.ie hrf).trans hs
  · exact hs

/-- The step of a delivery has the delivery as its first event. -/
theorem step_delivery_histRev {s t : State} (hd : deliveryDue s = true) (h : step s = .next t) :
    ∃ es, t.histRev = es ++ .interruptDelivered s.rf.im :: s.histRev := by
  rcases step_delivery_cases (fault_eq_none_of_step h) hd with ⟨i, -, hs⟩ | hs | hs | ⟨-, -, hs⟩ <;> rw [hs] at h
  · obtain ⟨es, hh⟩ := exec_appends h
    exact ⟨es ++ [.fed 0x00 .injected, .fed 0x38 .injected, .fed 0xCD .injected], by
      rw [hh, List.append_assoc]; rfl⟩
  · obtain rfl := Host.Outcome.next.inj h
    exact ⟨[.fault .injectionIncomplete, .fed 0x00 .injected, .fed 0x38 .injected, .fed 0xCD .injected], rfl⟩
  · obtain rfl := Host.Outcome.next.inj h
    exact ⟨[.fault (.unsupportedInterruptMode s.rf.im)], rfl⟩
  · exact step_appends h

/-- The same in the order of happening, with the latch cleared. -/
theorem step_delivery {s t : State} (hd : deliveryDue s = true) (h : step s = .next t) :
    t.pend = false ∧ ∃ es, t.hist = s.hist ++ .interruptDelivered s.rf.im :: es := by
  obtain ⟨-, hie⟩ := deliveryDue_iff.mp hd
  obtain ⟨hpend, -⟩ := step_next_frame h
  obtain ⟨es, hh⟩ := step_delivery_histRev hd h
  refine ⟨by rw [hpend, hie, Bool.not_true, Bool.and_false], es.reverse, ?_⟩
  rw [Engine.State.hist, Engine.State.hist, hh, List.reverse_append, List.reverse_cons, List.append_assoc,
    List.singleton_append]

/-- Settles O29: `IE` stays 0 after an injection because no instruction that ends in the byte 0x00 is EI. -/
theorem deliveryClearsEnableAndPending : Obligations.DeliveryClearsEnableAndPending := by
  intro s t hf hp hie h
  have hd : deliveryDue s = true := deliveryDue_iff.mpr ⟨hp, hie⟩
  obtain ⟨hpend, hhist⟩ := step_delivery hd h
  refine ⟨hpend, hhist, fun hmode => ?_, fun hm hpol => ?_⟩
  · rcases step_delivery_cases hf hd with ⟨i, hi, hs⟩ | hs | hs | ⟨hm, hpol, -⟩
    · exact exec_ie_eq_false (hs.symm.trans h) hi rfl
    · obtain rfl := Host.Outcome.next.inj (hs.symm.trans h)
      rfl
    · obtain rfl := Host.Outcome.next.inj (hs.symm.trans h)
      rfl
    · simp [hm, hpol] at hmode
  · obtain ⟨-, hnoOp⟩ := unsupportedModeDelivery s hf hp hie hm
    exact (hnoOp hpol).symm.trans h

/-! ### An interrupt that is not enabled -/

/-- A step with no delivery reads nothing of the latch, set or not (R143). -/
theorem step_reframe_of_no_delivery {p : Bool → Bool} {s : State} (h : List (Event Instr (List Byte)))
    (hf : s.fault = none) (hd : ¬(s.pend = true ∧ s.rf.ie = true)) (hd' : ¬(p s.pend = true ∧ s.rf.ie = true)) :
    step (reframe p h id s) = mapNext (reframe p h id) (step s) := by
  have ha : acquire feed (reframe p h id s) = mapAcquired (reframe p h id) (acquire feed s) := by
    rw [acquire_of_no_delivery feed hd, ← fetch_reframe]
    exact acquire_of_no_delivery feed hd'
  rcases step_cases hf with ⟨t, ht, hs⟩ | ⟨i, t, ht, hs⟩ <;> rw [ht] at ha <;> rw [hs]
  · exact step_of_acquire_error hf ha
  · exact (step_of_acquire_ok (s := reframe p h id s) hf ha).trans (exec_reframe p h i t)

/-- With nothing put before its history, a reframed state is the state with its latch changed. -/
theorem reframe_latch (b : Bool) (s : State) : reframe (fun _ => b) [] id s = { s with pend := b } := by
  simp [reframe]

/-- Settles O28: the step is the same whatever the latch, and the delivery comes with the next. -/
theorem disabledInterruptStaysPending : Obligations.DisabledInterruptStaysPending := by
  intro s t hf hie h
  have hoff (b : Bool) : ¬(b = true ∧ s.rf.ie = true) := by simp [hie]
  refine ⟨?_, fun ht hset => ?_⟩
  · have hlatch := step_reframe_of_no_delivery (p := fun _ => true) (s := { s with pend := false }) [] hf (hoff _) (hoff _)
    rwa [h, mapNext, reframe_latch, reframe_latch] at hlatch
  · have hd : deliveryDue { t with pend := true } = true := deliveryDue_iff.mpr ⟨rfl, hset⟩
    obtain ⟨u, hu⟩ := step_next (s := { t with pend := true }) ht
    obtain ⟨hpend, es, hhist⟩ := step_delivery hd hu
    exact ⟨u, es, hu, hpend, hhist⟩

end Sys2Proof.Machine

/-! PROOF. TD's reading of its own encodings (43_instruction_set.md R201, R217, R218): no encoding begins another, so each
is read back whatever follows it; and bytes that hold no instruction are fed to the end of the budget. -/

namespace Sys2Proof.Machine

/-! ### Every encoding is read back -/

/-- Byte 0 of format B2n is the beginning of an encoding and no whole one. -/
theorem isProperPrefix_of_key_rowsB2n : ∀ op ∈ rowsB2n.map Prod.fst,
    wholeEncoding [op] = none ∧ isProperPrefix [op] = true := by
  decide

/-- Byte 0 of format B3nn is the beginning of an encoding and no whole one, and no byte 0 of the two-byte formats. -/
theorem isProperPrefix_of_key_rowsB3nn : ∀ op ∈ rowsB3nn.map Prod.fst,
    (wholeEncoding [op] = none ∧ isProperPrefix [op] = true) ∧ op ≠ edPrefix ∧ op ∉ rowsB2n.map Prod.fst := by
  decide

/-- No whole encoding begins another, and TD takes every beginning of one for such (R217). -/
theorem isProperPrefix_of_wholeEncoding {s t : List Byte} {i : Instr} (hs : s ≠ []) (ht : t ≠ [])
    (h : wholeEncoding (s ++ t) = some i) : wholeEncoding s = none ∧ isProperPrefix s = true := by
  match s, t with
  | [], _ => exact absurd rfl hs
  | _, [] => exact absurd rfl ht
  | [op], [x] =>
    by_cases hed : op = edPrefix
    · rw [hed]
      decide
    · simp only [List.singleton_append, wholeEncoding, if_neg hed] at h
      obtain ⟨mk, hmk, -⟩ := Option.map_eq_some_iff.mp h
      exact isProperPrefix_of_key_rowsB2n op (List.mem_map_of_mem (mem_of_lookup_eq_some hmk))
  | [op], [lo, hi] =>
    obtain ⟨mk, hmk, -⟩ := Option.map_eq_some_iff.mp h
    exact (isProperPrefix_of_key_rowsB3nn op (List.mem_map_of_mem (mem_of_lookup_eq_some hmk))).1
  | [op, lo], [hi] =>
    obtain ⟨mk, hmk, -⟩ := Option.map_eq_some_iff.mp h
    obtain ⟨-, hed, hB2n⟩ := isProperPrefix_of_key_rowsB3nn op (List.mem_map_of_mem (mem_of_lookup_eq_some hmk))
    have hnone : rowsB2n.lookup op = none := lookup_eq_none_of_keys_subset hB2n (List.Subset.refl _)
    exact ⟨by simp [wholeEncoding, hed, hnone], by simp [isProperPrefix, hmk]⟩
  | [_], _ :: _ :: _ :: _ => cases h
  | [_, _], _ :: _ :: _ => cases h
  | _ :: _ :: _ :: _, _ :: _ => simp [wholeEncoding] at h

/-- A feed that ends a whole encoding completes its instruction (R217). -/
theorem feed_accum_whole {s : List Byte} {b : Byte} {i : Instr} (h : wholeEncoding (s ++ [b]) = some i) :
    feed (.accum s) b = (decInit, .complete i i.args) := by
  simp [feed, h]

/-- A feed within an encoding is kept (R217). -/
theorem feed_accum_properPrefix {s : List Byte} {b : Byte} (hw : wholeEncoding (s ++ [b]) = none)
    (hp : isProperPrefix (s ++ [b]) = true) : feed (.accum s) b = (.accum (s ++ [b]), .incomplete) := by
  simp [feed, hw, hp]

/-- Bytes that complete a whole encoding with the ones already held are read as its instruction, whatever follows. -/
theorem decodeFrom_accum_of_wholeEncoding {s t : List Byte} {i : Instr} (rest : List Byte) (ht : t ≠ [])
    (h : wholeEncoding (s ++ t) = some i) : decodeFrom (.accum s) (t ++ rest) = .ok (i, rest) := by
  induction t generalizing s with
  | nil => exact absurd rfl ht
  | cons b t ih =>
    rw [List.cons_append, decodeFrom]
    rcases eq_or_ne t [] with rfl | hne
    · rw [feed_accum_whole h, List.nil_append]
    · rw [List.append_cons] at h
      obtain ⟨hw, hp⟩ := isProperPrefix_of_wholeEncoding (by simp) hne h
      rw [feed_accum_properPrefix hw hp]
      exact ih hne h

/-- A whole encoding is decoded, whatever follows. -/
theorem decode_of_wholeEncoding {t : List Byte} {i : Instr} (h : wholeEncoding t = some i) (rest : List Byte) :
    decode (t ++ rest) = .ok (i, rest) := by
  have ht : t ≠ [] := by
    rintro rfl
    cases h
  exact decodeFrom_accum_of_wholeEncoding (s := []) rest ht h

/-- The encoder writes whole encodings. -/
theorem wholeEncoding_encode (i : Instr) : wholeEncoding (encode i) = some i := by
  have hword (mk : Word → Instr) (nn : Word) : some (mk (leWord (loByte nn) (hiByte nn))) = some (mk nn) := by
    rw [leWord_lo_hi]
  cases i with
  | call nn => exact hword .call nn
  | ldSpImm nn => exact hword .ldSpImm nn
  | ldMemA nn => exact hword .ldMemA nn
  | ldAMem nn => exact hword .ldAMem nn
  | jp nn => exact hword .jp nn
  | _ => rfl

/-- Settles O2: the encoding of an instruction is a whole encoding, and no beginning of it is one. -/
theorem decodeOfEncode : Obligations.DecodeOfEncode := fun i => decode_of_wholeEncoding (wholeEncoding_encode i)

/-- Settles O3: the bytes consumed are a whole encoding, which is the one the encoder writes. -/
theorem decodeDeterminesBytes : Obligations.DecodeDeterminesBytes := fun _ _ _ => eq_encode_append_of_decode

/-- Settles O1: one whole encoding of each format, and a byte that begins none. -/
theorem knownWordsDecode : Obligations.KnownWordsDecode := by
  refine ⟨decode_of_wholeEncoding (t := [0x00]) rfl [], decode_of_wholeEncoding (t := [0xCD, 0x38, 0x00]) rfl [],
    decode_of_wholeEncoding (t := [0x3E, 0x41]) rfl [], decode_of_wholeEncoding (t := [0x31, 0x34, 0x12]) rfl [],
    decode_of_wholeEncoding (t := [0xDB, 0x02]) rfl [0xFF], decode_of_wholeEncoding (t := [0xED, 0x5E]) rfl [], ?_⟩
  have hhalt : feed decInit 0x76 = (.junk, .incomplete) := feed_accum_unlisted rfl rfl
  show decodeFrom (feed decInit 0x76).1 [0x00] = .error .unlisted
  rw [hhalt, decodeFrom_junk]

/-! ### Bytes that hold no instruction -/

/-- Of bytes that are rejected no feed completes, and after an unlisted sequence the decoder stands in junk (R91, R218). -/
theorem feedAll_of_decodeFrom_error {d : DecState} {bytes : List Byte} {e : DecodeReject}
    (h : decodeFrom d bytes = .error e) :
    (feedAll feed d bytes).2 = List.replicate bytes.length .incomplete ∧
      (e = .unlisted → (feedAll feed d bytes).1 = .junk) := by
  induction bytes generalizing d with
  | nil =>
    refine ⟨rfl, fun he => ?_⟩
    cases d with
    | junk => rfl
    | accum s =>
      rw [he] at h
      cases h
  | cons b bs ih =>
    rw [decodeFrom] at h
    cases hr : (feed d b).2 with
    | complete i a => simp [hr] at h
    | incomplete =>
      rw [hr] at h
      obtain ⟨hfeeds, hjunk⟩ := ih h
      exact ⟨by rw [feedAll, hr, hfeeds, List.length_cons, List.replicate_succ], hjunk⟩

/-- Settles O23: none of the budget's feeds completes, so the fetch ends in `DecodeFault` with the decoder as they left
it. -/
theorem undecodableBytesFault : Obligations.UndecodableBytesFault := by
  rintro s e ⟨hf, hdec⟩ hd hdecode
  obtain ⟨hfeeds, hjunk⟩ := feedAll_of_decodeFrom_error hdecode
  rw [readBytes_length, ← hdec] at hfeeds
  obtain ⟨hbudget, -⟩ := decodeBudgetExceededFaults
  exact ⟨_, hdec ▸ hjunk, hbudget _ _ _ _ _ feed (fun i _ => exec i) s hf hd hfeeds⟩

end Sys2Proof.Machine

/-! PROOF. The instructions of TD (43_instruction_set.md R202–R216): what each reads, writes and leaves, and which of them
write Memory. -/

namespace Sys2Proof.Machine

/-! ### The shapes of a meaning, by what they touch -/

/-- An instruction that touches registers alone always completes, and writes nothing else. -/
theorem runOffer_registers (i : Instr) (g : RegFile Ext → RegFile Ext) (s : State) :
    runOffer i (noRead fun rf => (g rf, [])) s =
      .next { s with rf := g s.rf, histRev := .stepReturn i i.args :: s.histRev } := rfl

/-- An instruction that stores one byte is that one write, and its `StepReturn`. -/
theorem runOffer_store (i : Instr) (a : Address) (v : RegFile Ext → Byte) (s : State) :
    runOffer i (noRead fun rf => (rf, [(a, v rf)])) s =
      .next (emit (.stepReturn i i.args) (resolveWrite oracle a (v s.rf) s)) := rfl

/-- The argument bytes of an instruction with a 16-bit operand are that operand's, as they were fetched. -/
theorem args_leWord (lo hi : Byte) : [loByte (leWord lo hi), hiByte (leWord lo hi)] = [lo, hi] := by
  rw [loByte_leWord, hiByte_leWord]

/-! ### Registers -/

/-- Settles O47: the registers stay as they are. -/
theorem nopHasNoEffect : Obligations.NopHasNoEffect := fun rest s =>
  ⟨decodeOfEncode .nop rest, runOffer_registers .nop id s⟩

/-- Settles O49: a register write. -/
theorem ldAImmLoadsImmediate : Obligations.LdAImmLoadsImmediate := fun n rest s =>
  ⟨decodeOfEncode (.ldAImm n) rest, runOffer_registers (.ldAImm n) (·.setA n) s⟩

/-- Settles O50: a register write, whose operand comes back from its two bytes. -/
theorem ldSpImmLoadsImmediate : Obligations.LdSpImmLoadsImmediate := by
  intro lo hi rest s
  refine ⟨decode_of_wholeEncoding (t := [0x31, lo, hi]) rfl rest, ?_⟩
  rw [exec_ldSpImm, runOffer_registers _ (·.setSp (leWord lo hi)), Instr.args, args_leWord]
  rfl

/-- Settles O53: a register write, whose operand comes back from its two bytes. -/
theorem jpJumps : Obligations.JpJumps := by
  intro lo hi rest s
  refine ⟨decode_of_wholeEncoding (t := [0xC3, lo, hi]) rfl rest, ?_⟩
  rw [exec_jp, runOffer_registers _ (·.setPc (leWord lo hi)), Instr.args, args_leWord]
  rfl

/-- Settles O58: two register writes. -/
theorem diAndEiWriteEnable : Obligations.DiAndEiWriteEnable := fun rest s =>
  ⟨decodeOfEncode .di rest, runOffer_registers .di (·.setIe false) s,
    decodeOfEncode .ei rest, runOffer_registers .ei (·.setIe true) s⟩

/-- Settles O59: three register writes. -/
theorem imInstructionsSetMode : Obligations.ImInstructionsSetMode := fun rest s =>
  ⟨decodeOfEncode .im0 rest, runOffer_registers .im0 (·.setIm .mode0) s,
    decodeOfEncode .im1 rest, runOffer_registers .im1 (·.setIm .mode1) s,
    decodeOfEncode .im2 rest, runOffer_registers .im2 (·.setIm .mode2) s⟩

/-! ### Memory -/

/-- Settles O52: a read of one memory cell. -/
theorem ldAMemLoadsByte : Obligations.LdAMemLoadsByte := by
  intro lo hi rest s
  refine ⟨decode_of_wholeEncoding (t := [0x3A, lo, hi]) rfl rest, ?_⟩
  rw [exec_ldAMem, runOffer_readOne_mem _ _ (classify_memAddress (leWord lo hi)), Instr.args, args_leWord]
  rfl

/-- Settles O51: a write of one memory cell. -/
theorem ldMemAStoresA : Obligations.LdMemAStoresA := by
  intro lo hi rest s
  refine ⟨decode_of_wholeEncoding (t := [0x32, lo, hi]) rfl rest,
    { s with
      mem := writeByte s.mem (leWord lo hi) s.rf.ext.a
      histRev := .stepReturn (.ldMemA (leWord lo hi)) [lo, hi] :: s.histRev }, ?_,
    readByte_writeByte_self _ _ _, fun b hb => readByte_writeByte_ne s.mem _ hb, rfl⟩
  rw [exec_ldMemA, runOffer_store _ _ (·.ext.a), memAddress, resolveWrite_mem, Instr.args, args_leWord]
  rfl

/-! ### The stack -/

/-- Settles O48: CALL pushes `PC`, and its argument bytes are the ones fetched. -/
theorem callPushesAndJumps : Obligations.CallPushesAndJumps := by
  intro lo hi rest s
  have hcall := exec_call_pushes (leWord lo hi) s
  rw [args_leWord] at hcall
  exact ⟨decode_of_wholeEncoding (t := [0xCD, lo, hi]) rfl rest, hcall⟩

/-- What RET leaves: `PC` is the word at SP, SP is higher by 2, and nothing else changes (R209). -/
theorem exec_ret_pops (s : State) :
    exec .ret s =
      .next { s with
        rf := { s.rf with
          pc := leWord (readByte s.mem s.rf.ext.sp) (readByte s.mem (s.rf.ext.sp + 1))
          ext := { s.rf.ext with sp := s.rf.ext.sp + 2 } }
        histRev := .stepReturn .ret [] :: s.histRev } := by
  rw [exec_ret, runOffer_pop]
  rfl

/-- Settles O54, by what RET leaves. -/
theorem retPopsPc : Obligations.RetPopsPc := fun rest s => ⟨decodeOfEncode .ret rest, exec_ret_pops s⟩

/-- Settles O60: RET reads the two cells CALL wrote, where SP − 2 + 1 is SP − 1 and SP − 2 + 2 is SP, modulo 0x10000. -/
theorem retUndoesCall : Obligations.RetUndoesCall := by
  intro nn s
  obtain ⟨t, ht, hhi, hlo, -, hframe⟩ := exec_call_pushes nn s
  refine ⟨t, _, ht, exec_ret_pops t, ?_, rfl⟩
  have hrf : t.rf = { s.rf with pc := nn, ext := { s.rf.ext with sp := s.rf.ext.sp - 2 } } := by rw [hframe]
  have hnext : s.rf.ext.sp - 2 + 1 = s.rf.ext.sp - 1 := by bv_omega
  have hback : s.rf.ext.sp - 2 + 2 = s.rf.ext.sp := by bv_omega
  simp only [hrf, hnext, hback, hlo, hhi, leWord_lo_hi]

/-! ### Ports -/

/-- Settles O55: one write of a port, bound or not. -/
theorem outWritesPort : Obligations.OutWritesPort := by
  intro n rest s
  have hout : exec (.outPortA n) s =
      .next (emit (.stepReturn (.outPortA n) [n]) (resolveWrite oracle (portAddress n) s.rf.ext.a s)) :=
    runOffer_store (.outPortA n) (portAddress n) (·.ext.a) s
  refine ⟨decodeOfEncode (.outPortA n) rest, fun d hd => ?_, fun hd => ?_⟩
  · rw [hout, resolveWrite_bound oracle _ (classify_portAddress n) hd]
    rfl
  · rw [hout, resolveWrite_unbound oracle _ (classify_portAddress n) hd]
    rfl

/-- Settles O56: one read of a bound port, whose byte is the oracle's answer. -/
theorem inReadsBoundPort : Obligations.InReadsBoundPort := by
  intro n rest d s hd
  refine ⟨decodeOfEncode (.inAPort n) rest, (oracleRead s.dev d n).1, _,
    runOffer_readOne_bound (.inAPort n) _ (classify_portAddress n) hd, rfl, fun w left h => ?_, fun h => ?_⟩
  · have hread := oracleRead_of_answer h n
    exact ⟨congrArg Prod.fst hread, congrArg Prod.snd hread⟩
  · have hread := oracleRead_of_no_answer h n
    exact ⟨congrArg Prod.fst hread, congrArg Prod.snd hread⟩

/-- Settles O57: one read of an unbound port. -/
theorem inFromUnboundPortIsFatal : Obligations.InFromUnboundPortIsFatal := fun n _ hd =>
  runOffer_readOne_unbound (.inAPort n) _ (classify_portAddress n) hd

/-! ### Who writes Memory -/

/-- The instructions whose write list can name the cell `a`: LD (nn),A with that address, and CALL with it below SP; a port
lies above every cell (R203, R206, R210). -/
def StoresTo (a sp : Word) (i : Instr) : Prop :=
  i = .ldMemA a ∨ (∃ nn, i = .call nn) ∧ (a = sp - 1 ∨ a = sp - 2)

/-- An entry of a write list that names a cell is of one of them. -/
theorem storesTo_of_mem_writes {i : Instr} {rf : RegFile Ext} {data : List Byte} {w : Address × Byte} {a : Word}
    (hw : w ∈ ((offer i).execute rf data).2) (ha : w.1 = a.toNat) : StoresTo a rf.ext.sp i := by
  cases i with
  | call nn =>
    refine .inr ⟨⟨nn, rfl⟩, ?_⟩
    rcases List.mem_pair.mp hw with rfl | rfl
    · exact .inl (BitVec.eq_of_toNat_eq ha.symm)
    · exact .inr (BitVec.eq_of_toNat_eq ha.symm)
  | ldMemA nn =>
    obtain rfl := List.mem_singleton.mp hw
    obtain rfl : nn = a := BitVec.eq_of_toNat_eq ha
    exact .inl rfl
  | outPortA n =>
    obtain rfl := List.mem_singleton.mp hw
    have hport : 0x10000 + n.toNat = a.toNat := ha
    omega
  | ldAMem nn =>
    simp only [offer, ldAMemOffer, readOne] at hw
    split at hw <;> cases hw
  | inAPort n =>
    simp only [offer, inAPortOffer, readOne] at hw
    split at hw <;> cases hw
  | ret =>
    simp only [offer, retOffer, pop] at hw
    split at hw <;> cases hw
  | _ => cases hw

/-- An instruction that changes a cell completes and has that cell in its write list. -/
theorem exec_storesTo {i : Instr} {s t : State} {a : Word} (h : exec i s = .next t)
    (ha : readByte t.mem a ≠ readByte s.mem a) :
    t.histRev.head? = some (.stepReturn i i.args) ∧ StoresTo a s.rf.ext.sp i := by
  rw [exec_eq_runOffer, runOffer] at h
  rcases runInstr_cases oracle i i.args (offer i).reads (offer i).execute s with
    ⟨data, _, es, -, hr, -⟩ | ⟨u, _, _, -, -, -, es, -, hr, hu⟩
  · obtain rfl := Host.Outcome.next.inj (hr.symm.trans h)
    refine ⟨rfl, ?_⟩
    by_contra hno
    refine ha ((readByte_commit oracle _ s a).trans (lastWritten_of_forall_ne (fun w hw hwa => ?_) _))
    exact hno (storesTo_of_mem_writes hw hwa)
  · obtain rfl := Host.Outcome.next.inj (hr.symm.trans h)
    rw [hu] at ha
    exact absurd rfl ha

/-- Settles O36: choosing the instruction changes neither Memory nor SP, so the instruction itself changed the cell. -/
theorem memoryChangesOnlyByStores : Obligations.MemoryChangesOnlyByStores := by
  intro s t a h ha
  rcases step_cases (fault_eq_none_of_step h) with ⟨u, hacq, hs⟩ | ⟨i, u, hacq, hs⟩
  · obtain rfl := Host.Outcome.next.inj (hs.symm.trans h)
    obtain ⟨_, _, _, hu, -⟩ := acquire_error hacq
    rw [hu] at ha
    exact absurd rfl ha
  · obtain ⟨_, _, hu, -⟩ := acquire_ok hacq
    have hmem : u.mem = s.mem := by rw [hu]
    have hext : u.rf.ext = s.rf.ext := by rw [hu]
    obtain ⟨hlast, hstore⟩ := exec_storesTo (hs.symm.trans h) (hmem ▸ ha)
    exact ⟨i, hlast, hext ▸ hstore⟩

end Sys2Proof.Machine

/-! PROOF. Progress (60_exceptions.md R325): each phase of a step ends in a state, a fatal fault included. -/

namespace Sys2Proof.Machine

/-- Settles O25: `engineStep_next` for every decoder and devices, and `step_next`, its instance with TD and the oracle. -/
theorem unfaultedMachineAlwaysSteps : Obligations.UnfaultedMachineAlwaysSteps :=
  ⟨fun _ => step_next, fun _ _ _ _ _ D V _ => engineStep_next D V⟩

end Sys2Proof.Machine

/-! PROOF. Hazards and setup (70_reset_and_hazards.md): an interrupt that waits for EI, and what the actions from outside
leave. -/

namespace Sys2Proof.Machine

/-- The state after a step that fetches and executes EI: `IE` is set, `PC` is past the one byte, the decoder is at
`dec_init`, and the feed and the `StepReturn` are recorded (43_instruction_set.md R213). -/
def afterEi (s : State) : State :=
  { s with
    dec := decInit
    rf := { s.rf with pc := s.rf.pc + 1, ie := true }
    histRev := .stepReturn .ei [] :: .fed 0xFB (.normal s.rf.pc) :: s.histRev }

/-- At a boundary with no delivery, the byte 0xFB at `PC` is an EI that the step executes: every budget covers one byte. -/
theorem step_ei {s : State} (hb : AtBoundary s) (hd : ¬(s.pend = true ∧ s.rf.ie = true))
    (hpc : readByte s.mem s.rf.pc = 0xFB) : step s = .next (afterEi s) := by
  obtain ⟨hrun, -⟩ := stepRunsDecodedInstruction
  have hdecode : decode (readBytes s.mem s.rf.pc longestInstr) = .ok (.ei, readBytes s.mem (s.rf.pc + 1) 2) := by
    rw [longestInstr, readBytes, hpc]
    exact decodeOfEncode .ei _
  calc
    step s = exec .ei (afterFetch 1 decInit s) := hrun s .ei _ hb hd s.params.decodeBudget.property hdecode
    _ = .next (afterEi s) := by
      rw [afterEi, ← hpc]
      exact runOffer_registers .ei (·.setIe true) _

/-- Settles O34: EI ends at a boundary where the kept interrupt is due, and its delivery pushes the address after EI. -/
theorem noDelayAfterEi : Obligations.NoDelayAfterEi := by
  intro s hb hp hie hm hpc
  have hoff : ¬(s.pend = true ∧ s.rf.ie = true) := by simp [hie]
  have hboundary : AtBoundary (afterEi s) := hb.imp_right fun _ => rfl
  obtain ⟨u, hu, hhi, hlo, -, -, hframe⟩ := modeOneDeliveryCalls0038 (afterEi s) hboundary hp rfl hm
  have hrf : u.rf = { s.rf with pc := 0x0038, ie := false, ext := { s.rf.ext with sp := s.rf.ext.sp - 2 } } := by
    rw [hframe, afterEi]
  have hpend : u.pend = false := by rw [hframe]
  exact ⟨afterEi s, u, step_ei hb hoff hpc, rfl, hp, hu, congrArg RegFile.pc hrf, congrArg RegFile.ie hrf, hpend,
    congrArg (·.ext.sp) hrf, hhi, hlo⟩

/-- Settles O40: `FAULT` is not among the parts that such an action writes. -/
theorem setupAndRaiseKeepInvariant : Obligations.SetupAndRaiseKeepInvariant := by
  intro x s t hx hs h
  obtain ⟨ht, -⟩ := act_setup_frame hx h
  exact ⟨inv_act_setup hx hs h, by rw [ht]⟩

end Sys2Proof.Machine
